-- ==== Sys2Proof/Word.lean ====
section
/-!
DEFINITION. The word of the machine (00_scope.md R8, R9): 16 two-valued bits, bit 0 the least
significant. `BitVec.getLsbD w i` is the spec's `w[i]`.
-/

namespace Sys2Proof

/-- A data word: 16 bits, never interpreted as a number by the hardware (R9, R89). -/
abbrev Word := BitVec 16

/-- The numeric value `val(w)` of a word (R9). -/
def Word.val (w : Word) : Nat := w.toNat

end Sys2Proof
end

