-- ==== Sys2Proof/Syntax.lean ====
section
/-!
DEFINITION. The syntax of the machine: the block kinds (00_scope.md R1), the formats and command words of
their input bundles (30_encoding.md R60, R61), the sixteen operations (R63), and the lines of a script
with their numerals and pseudo-operations (R67, R68).
-/

namespace Sys2Proof

/-- The five RAM tiers (R1, R7). No other instance of the composite block is this hardware (R146). -/
inductive Tier where
  | ram8
  | ram64
  | ram512
  | ram4096
  | ram16384
  deriving DecidableEq, Repr

/-- The eight block kinds, leaf to root (R1). -/
inductive Block where
  | dff
  | bit
  | reg
  | ram (t : Tier)
  deriving DecidableEq, Repr

/-- The nine input-bundle formats (R60). `peek` is the unclocked `read()` of the Loadable Bit. -/
inductive Format where
  | dff
  | peek
  | bit
  | reg
  | ram (t : Tier)
  deriving DecidableEq, Repr

/-- A command: one cycle's input bundle packed as the command word of R61, tagged with the format of the
block it is given to. The word's width is in its type, so a command of the wrong width cannot be written
down (R65, R161). -/
inductive Command where
  | dff (cmd : BitVec 1)
  | peek
  | bit (cmd : BitVec 2)
  | reg (cmd : BitVec 17)
  | ram8 (cmd : BitVec 20)
  | ram64 (cmd : BitVec 23)
  | ram512 (cmd : BitVec 26)
  | ram4096 (cmd : BitVec 29)
  | ram16384 (cmd : BitVec 31)
  deriving DecidableEq, Repr

/-- The sixteen operations (R63), one constructor for each row of the opcode table. An address is a `k`-bit
vector whose most significant bit is the spec's `address[0]` (R10); `value` is kept where it is ignored
(R64), because it is a field of the bundle. -/
inductive Instr where
  | dffAdv (next : Bool)
  | bitRead
  | bitHold (value : Bool)
  | bitLoad (value : Bool)
  | regHold (value : Word)
  | regLoad (value : Word)
  | ram8Read (address : BitVec 3) (value : Word)
  | ram8Write (address : BitVec 3) (value : Word)
  | ram64Read (address : BitVec 6) (value : Word)
  | ram64Write (address : BitVec 6) (value : Word)
  | ram512Read (address : BitVec 9) (value : Word)
  | ram512Write (address : BitVec 9) (value : Word)
  | ram4096Read (address : BitVec 12) (value : Word)
  | ram4096Write (address : BitVec 12) (value : Word)
  | ram16384Read (address : BitVec 14) (value : Word)
  | ram16384Write (address : BitVec 14) (value : Word)
  deriving DecidableEq, Repr

/-- The base a numeral of a script line is written in (R67). -/
inductive Radix where
  | dec
  | hex
  | bin
  deriving DecidableEq, Repr

/-- A numeral of a script line: its digits, most significant first (R67). -/
structure Numeral where
  radix : Radix
  digits : List Nat
  deriving DecidableEq, Repr

/-- A line of a script (R67) or a pseudo-operation (R68). An operand that R68 lets a line omit is an
`Option`; `bitAdv`, `regAdv` and `ramAdv` are the source's own calls, operands in the source's order. -/
inductive Line where
  | dffAdv (next : Numeral)
  | bitRead
  | bitHold (value : Option Numeral)
  | bitLoad (value : Numeral)
  | regHold (value : Option Numeral)
  | regLoad (value : Numeral)
  | ramRead (t : Tier) (address : Numeral) (value : Option Numeral)
  | ramWrite (t : Tier) (address value : Numeral)
  | bitAdv (value enable : Numeral)
  | regAdv (value enable : Numeral)
  | ramAdv (t : Tier) (value address enable : Numeral)
  deriving DecidableEq, Repr

end Sys2Proof
end

