-- ==== Sys2Proof/Config.lean ====
section
/-!
DEFINITION. The constants of the hardware (00_scope.md R7): every size is fixed at construction and none is
left to the implementation. The one parameter the spec leaves open that is not the choice of the block
itself, the text format of the diagnostic dump (92_eei_decisions.md D15), is an uninterpreted constant.
-/

namespace Sys2Proof

/-- Loadable Bits of a Word Register, bits of a word (R7). -/
def Config.wordBits : Nat := 16

/-- Words of a RAM block (R7, R40). -/
def Config.capacity : Tier → Nat
  | .ram8 => 8
  | .ram64 => 64
  | .ram512 => 512
  | .ram4096 => 4096
  | .ram16384 => 16384

/-- Address bits `k` of a RAM block (R7, R40). -/
def Config.addressBits : Tier → Nat
  | .ram8 => 3
  | .ram64 => 6
  | .ram512 => 9
  | .ram4096 => 12
  | .ram16384 => 14

/-- Children of a RAM block: Word Registers of a RAM8, blocks of the tier below of the others (R7, R130). -/
def Config.fanOut : Tier → Nat
  | .ram8 => 8
  | .ram64 => 8
  | .ram512 => 8
  | .ram4096 => 8
  | .ram16384 => 4

/-- Address bits `f` a tier consumes to select its child (R7, R130). -/
def Config.bitsConsumed : Tier → Nat
  | .ram8 => 3
  | .ram64 => 3
  | .ram512 => 3
  | .ram4096 => 3
  | .ram16384 => 2

/-- Words `n_c` of one child (R25, R130); a RAM8's child is one Word Register. -/
def Config.childCapacity : Tier → Nat
  | .ram8 => 1
  | .ram64 => 8
  | .ram512 => 64
  | .ram4096 => 512
  | .ram16384 => 4096

/-- OPEN parameter `dump_format` (D15, R171, N9): the text the diagnostic dump makes of a block's leaves.
DESIGN CHOICE (log entry 13, safe): uninterpreted, so nothing about the text can be proved; that it is
given for every block kind is the model's choice too. -/
opaque Config.dumpFormat : Block → List Word → List Char

end Sys2Proof
end

