-- ==== Sys2Proof/Machine/State.lean ====
section
/-!
DEFINITION. The state of the machine. `Blocks` is the hardware's state: one block of each kind (00_scope.md R1),
each holding Bit Cells and nothing else (10_state.md R20). `State` adds what the caller of the blocks holds,
because a step takes a state and nothing else: the script still to be presented and the outputs seen (log entry 2).
The spec gives the machine no program counter, flag, control register, accumulator, hidden state or mode (R30 to
R34, 60_exceptions.md R166), so there is none here.
-/

namespace Sys2Proof.Machine

/-- One word of a RAM block at its address value. The hardware has no bytes (20_memory.md R42): the addressable
unit is the 16-bit word (log entry 5). -/
abbrev Cell := Nat × Word

/-- The abstract memory `M` of a RAM block (R37) in its canonical form: addresses strictly rising, and no entry
equal to what an unlisted address reads as. -/
abbrev Memory := List Cell

/-- What a word that nothing has written reads as: the reset content `0x0000` (R29, 92_eei_decisions.md D22). -/
def Memory.unlisted : Word := 0#16

/-- The canonical form of the memory of a block of `n` words: strictly rising addresses, all below `n`, no entry
of the unlisted value. -/
abbrev Memory.wf (n : Nat) (m : Memory) : Prop :=
  m.Pairwise (fun x y => x.1 < y.1) ∧ ∀ c ∈ m, c.1 < n ∧ c.2 ≠ Memory.unlisted

/-- The hardware's state: one block of each of the eight kinds, side by side and independent (R1, R27;
92_eei_decisions.md D17, log entry 1). A RAM block is held as its flat map `M` (R37, log entry 6). -/
structure Blocks where
  /-- `state` of the standalone Bit Cell (R21). -/
  dff : Bool
  /-- `q` of the standalone Loadable Bit: the state of its one Bit Cell (R22). -/
  bit : Bool
  /-- Content `r` of the standalone Word Register: bit `i` is `bits[i].q` (R23). -/
  reg : Word
  /-- `M` of the RAM8: 8 words (R24, R37). -/
  ram8 : Memory
  /-- `M` of the RAM64: 64 words (R25, R37). -/
  ram64 : Memory
  /-- `M` of the RAM512: 512 words (R25, R37). -/
  ram512 : Memory
  /-- `M` of the RAM4096: 4096 words (R25, R37). -/
  ram4096 : Memory
  /-- `M` of the RAM16384: 16384 words (R25, R37). -/
  ram16384 : Memory
  deriving DecidableEq, Repr

/-- The output of one operation, by the format it was given in (30_encoding.md R60). -/
inductive Output where
  /-- `out` of the Bit Cell. -/
  | dff (out : Bool)
  /-- The answer of the unclocked `read()` of the Loadable Bit. -/
  | peek (out : Bool)
  /-- `out` of the Loadable Bit. -/
  | bit (out : Bool)
  /-- `out` of the Word Register. -/
  | reg (out : Word)
  /-- `out` of a RAM block. -/
  | ram (t : Tier) (out : Word)
  deriving DecidableEq, Repr

/-- What the host's step takes: the hardware's whole state, `Blocks`, and the caller beside it. The hardware's own step
function is `advance` over `Blocks`, with the inputs as arguments and the output as a result (R36, R11). Neither `script`
nor `outputs` is hardware state (R36); no operation reads either. DESIGN CHOICE (log entry 2, safe). -/
structure State extends Blocks where
  /-- The commands the caller has still to present, the next one first (00_scope.md R14, 30_encoding.md R67). -/
  script : List Command
  /-- The outputs the caller has seen, oldest first (R69). -/
  outputs : List Output
  deriving DecidableEq, Repr

/-- A stop with a fault. The set of causes is empty (60_exceptions.md R160: the step function "has no fault outcome
and needs no fault type"), so nothing raises one. Safe: a step cannot fault because the hardware cannot. -/
inductive Fault where
  deriving DecidableEq, Repr

/-- A stop without a meaning. -/
inductive Refusal where
  /-- An operation without a meaning in this model. Raised by no arm of `exec`: all sixteen have their meaning.
  It would be safe: the model stops where the hardware goes on. -/
  | notModelled (mnemonic : String)
  deriving DecidableEq, Repr

/-- What a step answers. -/
abbrev Result := Host.Outcome State Fault Refusal

/-- The blocks right after construction: every Bit Cell `false`, every word `0x0000` (R29, R180). -/
def Blocks.reset : Blocks where
  dff := false
  bit := false
  reg := 0#16
  ram8 := []
  ram64 := []
  ram512 := []
  ram4096 := []
  ram16384 := []

/-- The machine right after reset: the blocks as constructed, no command presented yet and no output seen
(DESIGN CHOICE for the caller's two fields, log entry 4). -/
def State.reset : State :=
  { Blocks.reset with script := [], outputs := [] }

end Sys2Proof.Machine
end

