-- ==== Sys2Proof/Machine/Flags.lean ====
section
/-!
DEFINITION. Flags, condition codes and predicates: the hardware has none, and no operation produces a status
(10_state.md R31). The source's one "flag" is the `enable` input of a cycle, which is an operand.
-/

namespace Sys2Proof.Machine

/-- The stored flags of the machine: there is none (R31). -/
inductive Flag where
  deriving DecidableEq, Repr

end Sys2Proof.Machine
end

