-- ==== Sys2Proof/WellFormed.lean ====
section
/-!
DEFINITION. Well-formedness of what is not already fixed by a type. An `Instr` and a `Command` carry their
widths in their types, as 30_encoding.md R65 asks, so every one of them is well-formed. What can be ill-formed
is an untyped number offered as a command word (R61) and a line of a script (R67, R68).
-/

namespace Sys2Proof

/-- The width `W` of a format's command word (R61). -/
def Format.width : Format → Nat
  | .dff => 1
  | .peek => 0
  | .bit => 2
  | .reg => 17
  | .ram t => 17 + Config.addressBits t

/-- A number fits a format's command word (R61, R65). -/
def Format.fits (f : Format) (w : Nat) : Bool := w < 2 ^ f.width

/-- The base of a radix (R67). -/
def Radix.base : Radix → Nat
  | .dec => 10
  | .hex => 16
  | .bin => 2

/-- A numeral has digits, each a digit of its base (R67). -/
def Numeral.wellFormed (n : Numeral) : Bool :=
  !n.digits.isEmpty && n.digits.all (· < n.radix.base)

/-- The value of a numeral, most significant digit first (R67). -/
def Numeral.value (n : Numeral) : Nat :=
  n.digits.foldl (fun acc d => acc * n.radix.base + d) 0

/-- A one-bit operand: a numeral of value 0 or 1 (R67). -/
def Numeral.isBit (n : Numeral) : Bool := n.wellFormed && n.value < 2

/-- A word operand: a numeral of a 16-bit value (R67). -/
def Numeral.isWord (n : Numeral) : Bool := n.wellFormed && n.value < 2 ^ Config.wordBits

/-- An address operand of a tier: `0 <= i < n` (R67). -/
def Numeral.isAddress (t : Tier) (n : Numeral) : Bool := n.wellFormed && n.value < Config.capacity t

/-- Every operand of a line is a numeral of its range (R67, R68). -/
def Line.wellFormed : Line → Bool
  | .dffAdv next => next.isBit
  | .bitRead => true
  | .bitHold value => value.all Numeral.isBit
  | .bitLoad value => value.isBit
  | .regHold value => value.all Numeral.isWord
  | .regLoad value => value.isWord
  | .ramRead t address value => address.isAddress t && value.all Numeral.isWord
  | .ramWrite t address value => address.isAddress t && value.isWord
  | .bitAdv value enable => value.isBit && enable.isBit
  | .regAdv value enable => value.isWord && enable.isBit
  | .ramAdv t value address enable => value.isWord && address.isAddress t && enable.isBit

end Sys2Proof
end

