-- ==== Sys2Proof/Decode.lean ====
section
/-!
DEFINITION. Decoding a command word to an operation and encoding it back (30_encoding.md R61 to R65). Given the
format, cut the fields and read `enable`: that is the whole decoder (R63). Every pattern of every format is a
legal operation (R64), so `decode` is total and rejects nothing; a number that is no command word of the format
is rejected by name before it (`decodeWord`).
-/

namespace Sys2Proof

/-- Why a number is not a command. -/
inductive DecodeReject where
  /-- The number has a bit at or above the format's width, so it is no command of it (R65). The error result is the
  model's choice (log entry 9): R65 gives a model none. -/
  | tooWide (f : Format)
  /-- The number is a command word of no format that is presented as this many bits. The error result is the model's
  choice (log entry 9): R65 gives a model none. -/
  | noFormat (nbits : Nat)
  deriving DecidableEq, Repr

/-- `enable` = cmd[W-1] (R61, R62). -/
def enableField {n : Nat} (cmd : BitVec n) : Bool := cmd.getLsbD (n - 1)

/-- `value` = cmd[15:0], bit `i` of the word at bit `i` of the command (R61, R62). -/
def valueField {n : Nat} (cmd : BitVec n) : Word := cmd.extractLsb' 0 16

/-- `address` = cmd[k+15:16], its leftmost bit `address[0]` (R61, R62). -/
def addressField {n : Nat} (k : Nat) (cmd : BitVec n) : BitVec k := cmd.extractLsb' 16 k

/-- The operation of a command: the format is the command's, `enable` is the only opcode bit (R63). -/
def decode : Command → Instr
  | .dff cmd => .dffAdv (cmd.getLsbD 0)
  | .peek => .bitRead
  | .bit cmd =>
    if enableField cmd then .bitLoad (cmd.getLsbD 0) else .bitHold (cmd.getLsbD 0)
  | .reg cmd =>
    if enableField cmd then .regLoad (valueField cmd) else .regHold (valueField cmd)
  | .ram8 cmd =>
    if enableField cmd then .ram8Write (addressField 3 cmd) (valueField cmd)
    else .ram8Read (addressField 3 cmd) (valueField cmd)
  | .ram64 cmd =>
    if enableField cmd then .ram64Write (addressField 6 cmd) (valueField cmd)
    else .ram64Read (addressField 6 cmd) (valueField cmd)
  | .ram512 cmd =>
    if enableField cmd then .ram512Write (addressField 9 cmd) (valueField cmd)
    else .ram512Read (addressField 9 cmd) (valueField cmd)
  | .ram4096 cmd =>
    if enableField cmd then .ram4096Write (addressField 12 cmd) (valueField cmd)
    else .ram4096Read (addressField 12 cmd) (valueField cmd)
  | .ram16384 cmd =>
    if enableField cmd then .ram16384Write (addressField 14 cmd) (valueField cmd)
    else .ram16384Read (addressField 14 cmd) (valueField cmd)

/-- The command word of a one-bit bundle: `enable`, then `value` (R61, format `BIT`). -/
def packBit (enable value : Bool) : BitVec 2 := BitVec.ofBool enable ++ BitVec.ofBool value

/-- The command word of a register bundle: `enable`, then `value` (R61, format `REG`). -/
def packReg (enable : Bool) (value : Word) : BitVec (1 + 16) := BitVec.ofBool enable ++ value

/-- The command word of a RAM bundle: `enable`, `address`, `value`, most significant first (R61). -/
def packRam {k : Nat} (enable : Bool) (address : BitVec k) (value : Word) : BitVec (1 + k + 16) :=
  BitVec.ofBool enable ++ address ++ value

/-- The command that selects an operation (R61, R63). -/
def encode : Instr → Command
  | .dffAdv next => .dff (BitVec.ofBool next)
  | .bitRead => .peek
  | .bitHold value => .bit (packBit false value)
  | .bitLoad value => .bit (packBit true value)
  | .regHold value => .reg (packReg false value)
  | .regLoad value => .reg (packReg true value)
  | .ram8Read address value => .ram8 (packRam false address value)
  | .ram8Write address value => .ram8 (packRam true address value)
  | .ram64Read address value => .ram64 (packRam false address value)
  | .ram64Write address value => .ram64 (packRam true address value)
  | .ram512Read address value => .ram512 (packRam false address value)
  | .ram512Write address value => .ram512 (packRam true address value)
  | .ram4096Read address value => .ram4096 (packRam false address value)
  | .ram4096Write address value => .ram4096 (packRam true address value)
  | .ram16384Read address value => .ram16384 (packRam false address value)
  | .ram16384Write address value => .ram16384 (packRam true address value)

/-- The format of a command: the block it is given to (R63). -/
def Command.format : Command → Format
  | .dff _ => .dff
  | .peek => .peek
  | .bit _ => .bit
  | .reg _ => .reg
  | .ram8 _ => .ram .ram8
  | .ram64 _ => .ram .ram64
  | .ram512 _ => .ram .ram512
  | .ram4096 _ => .ram .ram4096
  | .ram16384 _ => .ram .ram16384

/-- The command word as a number, bit `b` of weight `2^b` (R61). -/
def Command.toNat : Command → Nat
  | .dff cmd => cmd.toNat
  | .peek => 0
  | .bit cmd => cmd.toNat
  | .reg cmd => cmd.toNat
  | .ram8 cmd => cmd.toNat
  | .ram64 cmd => cmd.toNat
  | .ram512 cmd => cmd.toNat
  | .ram4096 cmd => cmd.toNat
  | .ram16384 cmd => cmd.toNat

/-- The command of a format whose word has the bits of `w` below the format's width (R61). -/
def Command.ofBits : Format → Nat → Command
  | .dff, w => .dff (BitVec.ofNat 1 w)
  | .peek, _ => .peek
  | .bit, w => .bit (BitVec.ofNat 2 w)
  | .reg, w => .reg (BitVec.ofNat 17 w)
  | .ram .ram8, w => .ram8 (BitVec.ofNat 20 w)
  | .ram .ram64, w => .ram64 (BitVec.ofNat 23 w)
  | .ram .ram512, w => .ram512 (BitVec.ofNat 26 w)
  | .ram .ram4096, w => .ram4096 (BitVec.ofNat 29 w)
  | .ram .ram16384, w => .ram16384 (BitVec.ofNat 31 w)

/-- The command of a format with the number `w` as its word. A number too wide for the format is not a command of that
block (R65); that it is rejected, and by name, is the model's choice (log entry 9). -/
def Command.ofNat (f : Format) (w : Nat) : Except DecodeReject Command :=
  if f.fits w then .ok (Command.ofBits f w) else .error (.tooWide f)

/-- Decode a number given to a block of format `f`: the operation (R63), or the reason it is no command, which is the
model's choice (log entry 9). -/
def decodeWord (f : Format) (w : Nat) : Except DecodeReject Instr :=
  (Command.ofNat f w).map decode

/-- The formats in the order `commandOfTableWord` tries them: narrowest first, but `DFF`, which has no opcode bit,
after `BIT`. -/
def tableFormats : List Format :=
  [.peek, .bit, .dff, .reg, .ram .ram8, .ram .ram64, .ram .ram512, .ram .ram4096, .ram .ram16384]

/-- A command word of width `W` is presented as `nbits` bits: `W` itself, or `W` rounded up to whole bytes. -/
def Format.presentedAs (f : Format) (nbits : Nat) : Bool :=
  f.width = nbits || 8 * ((f.width + 7) / 8) = nbits

/-- The command of an opcode-table word. The format is not in the word (R63), so where only the number of whole
bytes is known several formats may fit. DESIGN CHOICE (log entry 8, safe: no step of the machine uses it, only
the placing of a word from outside): the first of `tableFormats` that has this many bits and that the word fits.
An exact width names its format uniquely. A number that is a command of no such format is rejected as `noFormat`, the
model's choice (log entry 9, safe): R65 gives no error result for it. -/
def commandOfTableWord (nbits w : Nat) : Except DecodeReject Command :=
  match tableFormats.find? (fun f => f.presentedAs nbits && f.fits w) with
  | some f => Command.ofNat f w
  | none => .error (.noFormat nbits)

/-- The operation the decoder reads from an opcode-table word of `nbits` bits; `none` where it refuses,
which is the model's choice (log entry 9). -/
def decodeTableWord (nbits w : Nat) : Option Instr :=
  match commandOfTableWord nbits w with
  | .ok c => some (decode c)
  | .error _ => none

/-- The block an operation acts on (R63). -/
def Instr.block : Instr → Block
  | .dffAdv _ => .dff
  | .bitRead | .bitHold _ | .bitLoad _ => .bit
  | .regHold _ | .regLoad _ => .reg
  | .ram8Read _ _ | .ram8Write _ _ => .ram .ram8
  | .ram64Read _ _ | .ram64Write _ _ => .ram .ram64
  | .ram512Read _ _ | .ram512Write _ _ => .ram .ram512
  | .ram4096Read _ _ | .ram4096Write _ _ => .ram .ram4096
  | .ram16384Read _ _ | .ram16384Write _ _ => .ram .ram16384

/-- The `match` value of an operation's row of the opcode table (R63). -/
def Instr.tableMatch : Instr → Nat
  | .bitLoad _ => 0x2
  | .regLoad _ => 0x10000
  | .ram8Write _ _ => 0x80000
  | .ram64Write _ _ => 0x400000
  | .ram512Write _ _ => 0x2000000
  | .ram4096Write _ _ => 0x10000000
  | .ram16384Write _ _ => 0x40000000
  | .dffAdv _ | .bitRead | .bitHold _ | .regHold _ => 0
  | .ram8Read _ _ | .ram64Read _ _ | .ram512Read _ _ | .ram4096Read _ _ | .ram16384Read _ _ => 0

/-- The `mask` value of an operation's row of the opcode table: the `enable` bit of its format, none for
`DFF.ADV` and `BIT.READ` (R63). -/
def Instr.tableMask : Instr → Nat
  | .dffAdv _ | .bitRead => 0
  | .bitHold _ | .bitLoad _ => 0x2
  | .regHold _ | .regLoad _ => 0x10000
  | .ram8Read _ _ | .ram8Write _ _ => 0x80000
  | .ram64Read _ _ | .ram64Write _ _ => 0x400000
  | .ram512Read _ _ | .ram512Write _ _ => 0x2000000
  | .ram4096Read _ _ | .ram4096Write _ _ => 0x10000000
  | .ram16384Read _ _ | .ram16384Write _ _ => 0x40000000

end Sys2Proof
end

