-- ==== Sys2Proof/Machine/Operands.lean ====
section
/-!
DEFINITION. The operand forms: address arrays and words as arrays of bits. The only addressing mode is the
direct `k`-bit address input (20_memory.md R41). An address array is numbered from its MOST significant bit
(00_scope.md R10), a word from its LEAST significant bit (R9).
-/

namespace Sys2Proof.Machine

/-- `a[i]` of an address array: index 0 is the most significant bit (R10). -/
def addressBit {k : Nat} (a : BitVec k) (i : Nat) : Bool := a.getMsbD i

/-- `idx(a)`, the numeric value of an address (R10). -/
def idx {k : Nat} (a : BitVec k) : Nat := a.toNat

/-- `a[i..j]` with `j = i + w - 1`: the sub-array of width `w` from index `i`, re-indexed from 0 (R10). -/
def addressSlice {k : Nat} (a : BitVec k) (i w : Nat) : BitVec w := a.extractLsb' (k - i - w) w

/-- `w[i]` of a word: index 0 is the least significant bit (R9). -/
def wordBit (w : Word) (i : Nat) : Bool := w.getLsbD i

/-- The word of width `n` whose bit `i` is `f i`. -/
def ofBits : (n : Nat) → (Nat → Bool) → BitVec n
  | 0, _ => 0#0
  | n + 1, f => (ofBits n f).cons (f n)

theorem idx_lt {k : Nat} (a : BitVec k) : idx a < 2 ^ k := a.isLt

/-- The inputs of one cycle of a RAM block (30_encoding.md R60), the address as its value `idx`. -/
structure Access where
  tier : Tier
  index : Nat
  value : Word
  enable : Bool
  deriving DecidableEq, Repr

/-- The RAM access an operation is, if it is one (R63, R68: `READ` and `WRITE` are the two branches of
`advance(value, address, enable)`). -/
def ramAccess : Instr → Option Access
  | .ram8Read a v => some ⟨.ram8, idx a, v, false⟩
  | .ram8Write a v => some ⟨.ram8, idx a, v, true⟩
  | .ram64Read a v => some ⟨.ram64, idx a, v, false⟩
  | .ram64Write a v => some ⟨.ram64, idx a, v, true⟩
  | .ram512Read a v => some ⟨.ram512, idx a, v, false⟩
  | .ram512Write a v => some ⟨.ram512, idx a, v, true⟩
  | .ram4096Read a v => some ⟨.ram4096, idx a, v, false⟩
  | .ram4096Write a v => some ⟨.ram4096, idx a, v, true⟩
  | .ram16384Read a v => some ⟨.ram16384, idx a, v, false⟩
  | .ram16384Write a v => some ⟨.ram16384, idx a, v, true⟩
  | .dffAdv _ | .bitRead | .bitHold _ | .bitLoad _ | .regHold _ | .regLoad _ => none

/-- An operation gives no block a new value: a peek, a hold or a read (`enable` = 0). The Bit Cell has no enable,
so `DFF.ADV` is never one (R64, 41_bit_cell.md R90). -/
def readsOnly : Instr → Bool
  | .bitRead | .bitHold _ | .regHold _ => true
  | .ram8Read _ _ | .ram64Read _ _ | .ram512Read _ _ | .ram4096Read _ _ | .ram16384Read _ _ => true
  | .dffAdv _ | .bitLoad _ | .regLoad _ => false
  | .ram8Write _ _ | .ram64Write _ _ | .ram512Write _ _ | .ram4096Write _ _ | .ram16384Write _ _ => false

/-- Clock edges an operation takes: one, but none for `BIT.READ` (70_reset_and_hazards.md R183, R189). -/
def clockEdges : Instr → Nat
  | .bitRead => 0
  | .dffAdv _ | .bitHold _ | .bitLoad _ | .regHold _ | .regLoad _ => 1
  | .ram8Read _ _ | .ram8Write _ _ | .ram64Read _ _ | .ram64Write _ _ => 1
  | .ram512Read _ _ | .ram512Write _ _ | .ram4096Read _ _ | .ram4096Write _ _ => 1
  | .ram16384Read _ _ | .ram16384Write _ _ => 1

end Sys2Proof.Machine
end

