-- ==== Sys2Proof/Machine/Selection.lean ====
section
/-!
DEFINITION. The combinational selection functions the blocks are defined with (40_selection_primitives.md):
pure, total, without state or delay (R80). Only their input-to-output behaviour is the spec's (D20).
-/

namespace Sys2Proof.Machine

/-- `select(a, b, sel)`: `a` when `sel` is 0, `b` when `sel` is 1 (R81). -/
def select (a b sel : Bool) : Bool :=
  match sel with
  | false => a
  | true => b

/-- Scalar negation (R88). -/
def scalarNot (a : Bool) : Bool := !a

/-- Scalar conjunction (R88). -/
def scalarAnd (a b : Bool) : Bool := a && b

/-- Scalar disjunction (R88). -/
def scalarOr (a b : Bool) : Bool := a || b

/-- `mux16(x, y, sel)`: `select` bit by bit, positions kept (R82). -/
def mux16 (x y : Word) (sel : Bool) : Word :=
  ofBits 16 fun i => select (wordBit x i) (wordBit y i) sel

/-- `dmux8(x, s)`: output `c` is `x` if `c = idx(s)`, else 0 (R83). -/
def dmux8 (x : Bool) (s : BitVec 3) : Vector Bool 8 :=
  Vector.ofFn fun c => if c.val = idx s then x else false

/-- `dmux4(x, s)`: output `c` is `x` if `c = idx(s)`, else 0 (R84). -/
def dmux4 (x : Bool) (s : BitVec 2) : Vector Bool 4 :=
  Vector.ofFn fun c => if c.val = idx s then x else false

/-- `mux8w(d, s)`: the word `d[idx(s)]` (R85). -/
def mux8w (d : Vector Word 8) (s : BitVec 3) : Word := d[idx s]'(idx_lt s)

/-- `mux4w(d, s)`: the word `d[idx(s)]` (R86). -/
def mux4w (d : Vector Word 4) (s : BitVec 2) : Word := d[idx s]'(idx_lt s)

end Sys2Proof.Machine
end

