-- ==== Sys2Proof/Machine/Ops.lean ====
section
/-!
DEFINITION. The named operations over the blocks: each block's `advance` as a function from old content and inputs
to new content and output, new content first, as the spec writes them (41_bit_cell.md R91, 42_loadable_bit.md R102,
43_word_register.md R111, 20_memory.md R47); the updates and cycles of the blocks; what the caller does
with them; fetching the next command of the script.

Taking an exception and returning from one are not here: the hardware has no exception, interrupt or trap and no
return from one (60_exceptions.md R160, R162, R164, R165).
-/

namespace Sys2Proof.Machine

/-! ### Memory of a RAM block -/

/-- `MemRead(i, 1)`: the word at address value `i`; an unlisted word reads as its reset content (R47, R29). -/
def Memory.read : Memory → Nat → Word
  | [], _ => Memory.unlisted
  | c :: m, i => if c.1 = i then c.2 else Memory.read m i

/-- The memory without its entries at `i`. -/
def Memory.erase (m : Memory) (i : Nat) : Memory := m.filter fun c => c.1 ≠ i

/-- An entry put in its place by address. -/
def Memory.insert (i : Nat) (v : Word) : Memory → Memory
  | [] => [(i, v)]
  | c :: m => if i < c.1 then (i, v) :: c :: m else c :: Memory.insert i v m

/-- `MemWrite(i, 1, v)`: word `i` becomes `v`, every other word is unchanged (R47). Writing the unlisted value
removes the entry, so the canonical form is kept. -/
def Memory.write (m : Memory) (i : Nat) (v : Word) : Memory :=
  if v = Memory.unlisted then m.erase i else Memory.insert i v (m.erase i)

/-! ### One cycle of each block -/

/-- The Bit Cell: `advance(s, next) = (next, s)` (R91). -/
def dffAdvance (state next : Bool) : Bool × Bool := (next, state)

/-- The peek of the Loadable Bit: its content, nothing else (R101). -/
def bitPeek (q : Bool) : Bool := q

/-- The Loadable Bit: its Bit Cell is advanced with `select(q, value, enable)`, in every cycle (R102, R105). -/
def bitAdvance (q value enable : Bool) : Bool × Bool := dffAdvance q (select q value enable)

/-- The Word Register: all 16 Loadable Bits advanced in one cycle under one `enable`, bit `i` of `value` to bit `i`
(R111, R114). -/
def regAdvance (r value : Word) (enable : Bool) : Word × Word :=
  (ofBits 16 fun i => (bitAdvance (wordBit r i) (wordBit value i) enable).1,
   ofBits 16 fun i => (bitAdvance (wordBit r i) (wordBit value i) enable).2)

/-- A RAM block in flat form: the output is the addressed word before the edge, and `value` is stored there if
`enable` is 1 (R47, R50). The nested form of 44_ram8.md R121 and 45_composite_ram.md R132 is
`Sys2Proof.Machine.Nested`; R48 says the two agree. -/
def ramAdvance (m : Memory) (i : Nat) (value : Word) (enable : Bool) : Memory × Word :=
  (if enable then m.write i value else m, m.read i)

/-! ### Updates of the blocks -/

/-- The Bit Cell takes a content. -/
def Blocks.setDff (b : Blocks) (v : Bool) : Blocks := { b with dff := v }

/-- The Loadable Bit takes a content. -/
def Blocks.setBit (b : Blocks) (v : Bool) : Blocks := { b with bit := v }

/-- The Word Register takes a content. -/
def Blocks.setReg (b : Blocks) (w : Word) : Blocks := { b with reg := w }

/-- The memory `M` of a tier's block. -/
def Blocks.mem (b : Blocks) : Tier → Memory
  | .ram8 => b.ram8
  | .ram64 => b.ram64
  | .ram512 => b.ram512
  | .ram4096 => b.ram4096
  | .ram16384 => b.ram16384

/-- A tier's block takes a memory. -/
def Blocks.setMem (b : Blocks) (t : Tier) (m : Memory) : Blocks :=
  match t with
  | .ram8 => { b with ram8 := m }
  | .ram64 => { b with ram64 := m }
  | .ram512 => { b with ram512 := m }
  | .ram4096 => { b with ram4096 := m }
  | .ram16384 => { b with ram16384 := m }

/-! ### One cycle of each block of the hardware

The hardware's own step functions: from the blocks before the edge and the cycle's inputs to the blocks after it and the
output (`advance : S x I -> S x O`, 00_scope.md R11). Inputs are arguments and the output is the second component; neither
is stored (10_state.md R36, 92_eei_decisions.md D3). -/

/-- The Bit Cell is advanced (R91). -/
def advanceDff (next : Bool) (b : Blocks) : Blocks × Output :=
  let r := dffAdvance b.dff next
  (b.setDff r.1, .dff r.2)

/-- The Loadable Bit is peeked: no state change and no clock edge (R101). -/
def peekBit (b : Blocks) : Blocks × Output := (b, .peek (bitPeek b.bit))

/-- The Loadable Bit is advanced (R102). -/
def advanceBit (value enable : Bool) (b : Blocks) : Blocks × Output :=
  let r := bitAdvance b.bit value enable
  (b.setBit r.1, .bit r.2)

/-- The Word Register is advanced (R111). -/
def advanceReg (value : Word) (enable : Bool) (b : Blocks) : Blocks × Output :=
  let r := regAdvance b.reg value enable
  (b.setReg r.1, .reg r.2)

/-- The RAM block of a tier is advanced at address value `i` (R47). -/
def advanceRam (t : Tier) (i : Nat) (value : Word) (enable : Bool) (b : Blocks) : Blocks × Output :=
  let r := ramAdvance (b.mem t) i value enable
  (b.setMem t r.1, .ram t r.2)

/-! ### The caller -/

/-- The state after an operation: the blocks it leaves, and the output it gave, seen by the caller (30_encoding.md
R69, log entry 2). -/
def State.see (s : State) (r : Blocks × Output) : State :=
  { s with toBlocks := r.1, outputs := s.outputs ++ [r.2] }

/-- The caller drives one operation of the blocks: it always answers a next state (60_exceptions.md R160). -/
def drive (operation : Blocks → Blocks × Output) (s : State) : Result :=
  .next (s.see (operation s.toBlocks))

/-- The caller's script is replaced. -/
def State.setScript (s : State) (cs : List Command) : State := { s with script := cs }

/-! ### The next command -/

/-- The next command of the script and the state without it; none where the caller presents no further cycle
(00_scope.md R14, 70_reset_and_hazards.md R190). -/
def fetch (s : State) : Option (Command × State) :=
  match s.script with
  | [] => none
  | c :: rest => some (c, s.setScript rest)

/-- The caller puts a command in front of its script. -/
def State.present (s : State) (c : Command) : State := s.setScript (c :: s.script)

end Sys2Proof.Machine
end

