-- ==== Sys2Proof/Machine/BitCell.lean ====
section
/-!
DEFINITION. The Bit Cell (41_bit_cell.md): `DFF.ADV`.
-/

namespace Sys2Proof.Machine

/-- `DFF.ADV next`: out = state, state <- next (R91). -/
def cycleDffAdv (next : Bool) : Blocks → Blocks × Output := advanceDff next

/-- The operation on the state: the caller drives `cycleDffAdv` (R91). -/
def execDffAdv (next : Bool) (s : State) : Result := drive (cycleDffAdv next) s

end Sys2Proof.Machine
end

