-- ==== Sys2Proof/Machine/CompositeRam.lean ====
section
/-!
DEFINITION. The composite tiers (45_composite_ram.md): `READ` and `WRITE` of RAM64, RAM512, RAM4096 and RAM16384.
-/

namespace Sys2Proof.Machine

/-- `RAM64.READ address, value`: out = M[idx(address)], no word changes, `value` ignored (R134). -/
def cycleRam64Read (address : BitVec 6) (value : Word) : Blocks → Blocks × Output :=
  advanceRam .ram64 (idx address) value false

/-- The operation on the state: the caller drives `cycleRam64Read` (R134). -/
def execRam64Read (address : BitVec 6) (value : Word) (s : State) : Result := drive (cycleRam64Read address value) s

/-- `RAM64.WRITE address, value`: out = the old M[idx(address)], which takes `value` (R135). -/
def cycleRam64Write (address : BitVec 6) (value : Word) : Blocks → Blocks × Output :=
  advanceRam .ram64 (idx address) value true

/-- The operation on the state: the caller drives `cycleRam64Write` (R135). -/
def execRam64Write (address : BitVec 6) (value : Word) (s : State) : Result := drive (cycleRam64Write address value) s

/-- `RAM512.READ address, value`: out = M[idx(address)], no word changes, `value` ignored (R136). -/
def cycleRam512Read (address : BitVec 9) (value : Word) : Blocks → Blocks × Output :=
  advanceRam .ram512 (idx address) value false

/-- The operation on the state: the caller drives `cycleRam512Read` (R136). -/
def execRam512Read (address : BitVec 9) (value : Word) (s : State) : Result := drive (cycleRam512Read address value) s

/-- `RAM512.WRITE address, value`: out = the old M[idx(address)], which takes `value` (R137). -/
def cycleRam512Write (address : BitVec 9) (value : Word) : Blocks → Blocks × Output :=
  advanceRam .ram512 (idx address) value true

/-- The operation on the state: the caller drives `cycleRam512Write` (R137). -/
def execRam512Write (address : BitVec 9) (value : Word) (s : State) : Result := drive (cycleRam512Write address value) s

/-- `RAM4096.READ address, value`: out = M[idx(address)], no word changes, `value` ignored (R138). -/
def cycleRam4096Read (address : BitVec 12) (value : Word) : Blocks → Blocks × Output :=
  advanceRam .ram4096 (idx address) value false

/-- The operation on the state: the caller drives `cycleRam4096Read` (R138). -/
def execRam4096Read (address : BitVec 12) (value : Word) (s : State) : Result := drive (cycleRam4096Read address value) s

/-- `RAM4096.WRITE address, value`: out = the old M[idx(address)], which takes `value` (R139). -/
def cycleRam4096Write (address : BitVec 12) (value : Word) : Blocks → Blocks × Output :=
  advanceRam .ram4096 (idx address) value true

/-- The operation on the state: the caller drives `cycleRam4096Write` (R139). -/
def execRam4096Write (address : BitVec 12) (value : Word) (s : State) : Result := drive (cycleRam4096Write address value) s

/-- `RAM16384.READ address, value`: out = M[idx(address)], no word changes, `value` ignored (R140). -/
def cycleRam16384Read (address : BitVec 14) (value : Word) : Blocks → Blocks × Output :=
  advanceRam .ram16384 (idx address) value false

/-- The operation on the state: the caller drives `cycleRam16384Read` (R140). -/
def execRam16384Read (address : BitVec 14) (value : Word) (s : State) : Result := drive (cycleRam16384Read address value) s

/-- `RAM16384.WRITE address, value`: out = the old M[idx(address)], which takes `value` (R141). -/
def cycleRam16384Write (address : BitVec 14) (value : Word) : Blocks → Blocks × Output :=
  advanceRam .ram16384 (idx address) value true

/-- The operation on the state: the caller drives `cycleRam16384Write` (R141). -/
def execRam16384Write (address : BitVec 14) (value : Word) (s : State) : Result := drive (cycleRam16384Write address value) s

end Sys2Proof.Machine
end

