-- ==== Sys2Proof/Machine/LoadableBit.lean ====
section
/-!
DEFINITION. The Loadable Bit (42_loadable_bit.md): `BIT.READ`, `BIT.HOLD`, `BIT.LOAD`.
-/

namespace Sys2Proof.Machine

/-- `BIT.READ`: out = q, no state change, no clock edge (R101). -/
def cycleBitRead : Blocks → Blocks × Output := peekBit

/-- The operation on the state: the caller drives `cycleBitRead` (R101). -/
def execBitRead (s : State) : Result := drive cycleBitRead s

/-- `BIT.HOLD value`: out = q, q <- q, `value` ignored (R103). -/
def cycleBitHold (value : Bool) : Blocks → Blocks × Output := advanceBit value false

/-- The operation on the state: the caller drives `cycleBitHold` (R103). -/
def execBitHold (value : Bool) (s : State) : Result := drive (cycleBitHold value) s

/-- `BIT.LOAD value`: out = q, q <- value (R104). -/
def cycleBitLoad (value : Bool) : Blocks → Blocks × Output := advanceBit value true

/-- The operation on the state: the caller drives `cycleBitLoad` (R104). -/
def execBitLoad (value : Bool) (s : State) : Result := drive (cycleBitLoad value) s

end Sys2Proof.Machine
end

