-- ==== Sys2Proof/Machine/Ram8.lean ====
section
/-!
DEFINITION. The base block (44_ram8.md): `RAM8.READ`, `RAM8.WRITE`.
-/

namespace Sys2Proof.Machine

/-- `RAM8.READ address, value`: out = reg[idx(address)], no register changes, `value` ignored (R123). -/
def cycleRam8Read (address : BitVec 3) (value : Word) : Blocks → Blocks × Output :=
  advanceRam .ram8 (idx address) value false

/-- The operation on the state: the caller drives `cycleRam8Read` (R123). -/
def execRam8Read (address : BitVec 3) (value : Word) (s : State) : Result := drive (cycleRam8Read address value) s

/-- `RAM8.WRITE address, value`: out = the old content of reg[idx(address)], which takes `value` (R124). -/
def cycleRam8Write (address : BitVec 3) (value : Word) : Blocks → Blocks × Output :=
  advanceRam .ram8 (idx address) value true

/-- The operation on the state: the caller drives `cycleRam8Write` (R124). -/
def execRam8Write (address : BitVec 3) (value : Word) (s : State) : Result := drive (cycleRam8Write address value) s

end Sys2Proof.Machine
end

