-- ==== Sys2Proof/Machine/WordRegister.lean ====
section
/-!
DEFINITION. The Word Register (43_word_register.md): `REG.HOLD`, `REG.LOAD`.
-/

namespace Sys2Proof.Machine

/-- `REG.HOLD value`: out = r, r <- r, `value` ignored (R112). -/
def cycleRegHold (value : Word) : Blocks → Blocks × Output := advanceReg value false

/-- The operation on the state: the caller drives `cycleRegHold` (R112). -/
def execRegHold (value : Word) (s : State) : Result := drive (cycleRegHold value) s

/-- `REG.LOAD value`: out = r, r <- value (R113). -/
def cycleRegLoad (value : Word) : Blocks → Blocks × Output := advanceReg value true

/-- The operation on the state: the caller drives `cycleRegLoad` (R113). -/
def execRegLoad (value : Word) (s : State) : Result := drive (cycleRegLoad value) s

end Sys2Proof.Machine
end

