-- ==== Sys2Proof/Machine/Dispatch.lean ====
section
/-!
DEFINITION. The dispatch: one arm for each of the sixteen operations (30_encoding.md R63).
-/

namespace Sys2Proof.Machine

def exec (i : Instr) (s : State) : Host.Outcome State Fault Refusal :=
  match i with
  | .dffAdv n => Sys2Proof.Machine.execDffAdv n s
  | .bitRead => Sys2Proof.Machine.execBitRead s
  | .bitHold v => Sys2Proof.Machine.execBitHold v s
  | .bitLoad v => Sys2Proof.Machine.execBitLoad v s
  | .regHold v => Sys2Proof.Machine.execRegHold v s
  | .regLoad v => Sys2Proof.Machine.execRegLoad v s
  | .ram8Read a v => Sys2Proof.Machine.execRam8Read a v s
  | .ram8Write a v => Sys2Proof.Machine.execRam8Write a v s
  | .ram64Read a v => Sys2Proof.Machine.execRam64Read a v s
  | .ram64Write a v => Sys2Proof.Machine.execRam64Write a v s
  | .ram512Read a v => Sys2Proof.Machine.execRam512Read a v s
  | .ram512Write a v => Sys2Proof.Machine.execRam512Write a v s
  | .ram4096Read a v => Sys2Proof.Machine.execRam4096Read a v s
  | .ram4096Write a v => Sys2Proof.Machine.execRam4096Write a v s
  | .ram16384Read a v => Sys2Proof.Machine.execRam16384Read a v s
  | .ram16384Write a v => Sys2Proof.Machine.execRam16384Write a v s

end Sys2Proof.Machine
end

