-- ==== Sys2Proof/Machine/Step.lean ====
section
/-!
DEFINITION. One step of the machine: the next command of the script is presented to its block, decoded and
executed. With the script at its end nothing is presented, no clock edge happens and the state stays as it is
(70_reset_and_hazards.md R190; log entry 3).
-/

namespace Sys2Proof.Machine

/-- One step: the operation of the next command, or nothing where no cycle is presented. DESIGN CHOICE for the
empty script (log entry 3, safe). -/
def step (s : State) : Host.Outcome State Fault Refusal :=
  match fetch s with
  | none => .next s
  | some (c, s') => exec (decode c) s'

/-- The state with an opcode-table word placed as the next command of the script, so that the next step runs it
(log entries 4 and 8). A word that is no command of any format places nothing and leaves the state as it is. DESIGN CHOICE
(log entry 9, safe): R65 says such a word is no command and not what is done with it. -/
def State.withFetchWord (s : State) (nbits w : Nat) : State :=
  match commandOfTableWord nbits w with
  | .ok c => s.present c
  | .error _ => s

end Sys2Proof.Machine
end

