-- ==== Sys2Proof/Machine/Advance.lean ====
section
/-!
DEFINITION. The hardware by itself: its state is `Blocks`, the inputs of a cycle are arguments and its output is a result
(00_scope.md R11, 10_state.md R36). `exec` drives these same cycles for a caller whose script and record stand beside the
blocks in `State` (log entry 2).
-/

namespace Sys2Proof.Machine

/-- One operation of the hardware, `advance : S x I -> S x O`: a total function of the blocks and the inputs
(R11, 20_memory.md R54). Nothing of the inputs, the output, the cycle number or the block kind is stored (R36). -/
def advance : Instr → Blocks → Blocks × Output
  | .dffAdv n => cycleDffAdv n
  | .bitRead => cycleBitRead
  | .bitHold v => cycleBitHold v
  | .bitLoad v => cycleBitLoad v
  | .regHold v => cycleRegHold v
  | .regLoad v => cycleRegLoad v
  | .ram8Read a v => cycleRam8Read a v
  | .ram8Write a v => cycleRam8Write a v
  | .ram64Read a v => cycleRam64Read a v
  | .ram64Write a v => cycleRam64Write a v
  | .ram512Read a v => cycleRam512Read a v
  | .ram512Write a v => cycleRam512Write a v
  | .ram4096Read a v => cycleRam4096Read a v
  | .ram4096Write a v => cycleRam4096Write a v
  | .ram16384Read a v => cycleRam16384Read a v
  | .ram16384Write a v => cycleRam16384Write a v

/-- A script of operations from some blocks: the blocks it ends in and the outputs, one for each operation, in order
(30_encoding.md R69, 70_reset_and_hazards.md R190). -/
def advanceAll : List Instr → Blocks → Blocks × List Output
  | [], b => (b, [])
  | i :: is, b =>
    let r := advance i b
    let rest := advanceAll is r.1
    (rest.1, r.2 :: rest.2)

end Sys2Proof.Machine
end

