-- ==== Sys2Proof/Machine/Observe.lean ====
section
/-!
DEFINITION. What an observer may read off a state without an operation: the words of a block in ascending order and
the diagnostic dump (60_exceptions.md R171; 92_eei_decisions.md D15, D18). None of these is an operation of the
hardware, and none changes a state.
-/

namespace Sys2Proof.Machine

/-- `M[0] .. M[n-1]` of a tier's block, in ascending `i` (R171, R37). -/
def ramWords (b : Blocks) (t : Tier) : List Word :=
  (List.range (Config.capacity t)).map fun i => (b.mem t).read i

/-- The leaves of a block: its Word Registers' contents. DESIGN CHOICE (log entry 13, safe): R171 and N9 do not say which
tiers have a dump nor in what order leaves appear. The model lists leaves for every block kind, in ascending `i`, and none
for a Bit Cell or a Loadable Bit, which have no Word Register. -/
def leaves (b : Blocks) : Block → List Word
  | .dff => []
  | .bit => []
  | .reg => [b.reg]
  | .ram t => ramWords b t

/-- The diagnostic dump of a block: some text of its leaves, in a format the spec leaves open (R171, N9). DESIGN CHOICE
(log entry 13, safe): that there is a dump for every block kind, `DFF` and `BIT` included. -/
def dump (b : Blocks) (k : Block) : List Char := Config.dumpFormat k (leaves b k)

/-- A hexadecimal digit of a value below 16. DESIGN CHOICE (log entry 13, safe): upper case, since neither R171 nor D15
gives the case of a dump's digits. -/
def hexDigit (d : Nat) : Char :=
  if d < 10 then Char.ofNat ('0'.toNat + d) else Char.ofNat ('A'.toNat + (d - 10))

/-- A word as four hexadecimal digits, most significant first (R9, D15). -/
def hexWord (w : Word) : List Char :=
  [hexDigit (w.toNat / 4096), hexDigit (w.toNat / 256 % 16), hexDigit (w.toNat / 16 % 16), hexDigit (w.toNat % 16)]

/-- D15's own suggestion for a dump, which is not claimed to be the repository's text: `M[0] .. M[n-1]`, each as four
hexadecimal digits. DESIGN CHOICE (log entry 13, safe): the digits' case and that every block kind has one. -/
def suggestedDump (b : Blocks) (k : Block) : List (List Char) := (leaves b k).map hexWord

/-- An output belongs to a clock edge: every one but the peek's (30_encoding.md R69, R183). -/
def Output.clocked : Output → Bool
  | .peek _ => false
  | .dff _ | .bit _ | .reg _ | .ram _ _ => true

end Sys2Proof.Machine
end

