-- ==== Sys2Proof/Machine/Script.lean ====
section
/-!
DEFINITION. Scripts: the meaning of a line and of a pseudo-operation (30_encoding.md R67, R68), and the reading of a
line's text by the grammar of R67. The layout the grammar leaves unsaid (blanks around a token, lines without a mnemonic,
whether blank or with a comment alone, the case of letters) is the model's: DESIGN CHOICE (log entry 14, safe: no step
reads text).
-/

namespace Sys2Proof.Machine

/-- Why a text is no script. That such a text is refused, and by these names, is the model's choice (log entries 9 and
14): R67 gives it no meaning and no error. -/
inductive ScriptError where
  /-- The mnemonic is none of R63 and R68. -/
  | unknownMnemonic (text : List Char)
  /-- The line has too few or too many operands for its mnemonic. -/
  | wrongOperands
  /-- A numeral is empty or holds a character that is no digit of its base. -/
  | badNumeral (text : List Char)
  /-- An operand is outside its range (`Line.wellFormed`). The refusal is the model's choice (log entry 9): R67 gives
  such a line no meaning and no error. -/
  | outOfRange
  deriving DecidableEq, Repr

/-! ### The meaning of a line -/

/-- A one-bit operand's value. -/
def numeralBit (n : Numeral) : Bool := n.value = 1

/-- A word operand's value. -/
def numeralWord (n : Numeral) : Word := BitVec.ofNat 16 n.value

/-- The `RAMn.READ` or `RAMn.WRITE` of a tier at address value `i` (R67). -/
def ramInstr (t : Tier) (i : Nat) (value : Word) (enable : Bool) : Instr :=
  match t, enable with
  | .ram8, false => .ram8Read (BitVec.ofNat 3 i) value
  | .ram8, true => .ram8Write (BitVec.ofNat 3 i) value
  | .ram64, false => .ram64Read (BitVec.ofNat 6 i) value
  | .ram64, true => .ram64Write (BitVec.ofNat 6 i) value
  | .ram512, false => .ram512Read (BitVec.ofNat 9 i) value
  | .ram512, true => .ram512Write (BitVec.ofNat 9 i) value
  | .ram4096, false => .ram4096Read (BitVec.ofNat 12 i) value
  | .ram4096, true => .ram4096Write (BitVec.ofNat 12 i) value
  | .ram16384, false => .ram16384Read (BitVec.ofNat 14 i) value
  | .ram16384, true => .ram16384Write (BitVec.ofNat 14 i) value

/-- An omitted word operand of a `READ` or `HOLD` is `0x0000` (R68). -/
def wordOrZero (n : Option Numeral) : Word := (n.map numeralWord).getD 0#16

/-- The operation a line stands for (R67), the expansion of a pseudo-operation (R68); an operand out of range is
refused, the model's choice (log entry 9). -/
def assembleLine (l : Line) : Except ScriptError Instr :=
  if l.wellFormed then
    .ok (match l with
      | .dffAdv next => .dffAdv (numeralBit next)
      | .bitRead => .bitRead
      | .bitHold value => .bitHold ((value.map numeralBit).getD false)
      | .bitLoad value => .bitLoad (numeralBit value)
      | .regHold value => .regHold (wordOrZero value)
      | .regLoad value => .regLoad (numeralWord value)
      | .ramRead t address value => ramInstr t address.value (wordOrZero value) false
      | .ramWrite t address value => ramInstr t address.value (numeralWord value) true
      | .bitAdv value enable => if numeralBit enable then .bitLoad (numeralBit value) else .bitHold (numeralBit value)
      | .regAdv value enable =>
        if numeralBit enable then .regLoad (numeralWord value) else .regHold (numeralWord value)
      | .ramAdv t value address enable =>
        ramInstr t address.value (numeralWord value) (numeralBit enable))
  else .error .outOfRange

/-! ### The text of a line -/

/-- The text before a comment (`--`). -/
def stripComment : List Char → List Char
  | [] => []
  | c :: cs => if c = '-' ∧ cs.head? = some '-' then [] else c :: stripComment cs

/-- A blank character within a line. -/
def isBlank (c : Char) : Bool := c = ' ' || c = '\t' || c = '\r'

/-- The text without blanks at its ends. -/
def trim (cs : List Char) : List Char :=
  ((cs.dropWhile isBlank).reverse.dropWhile isBlank).reverse

/-- The pieces of a text between separators. -/
def splitAt (sep : Char) : List Char → List (List Char)
  | [] => [[]]
  | c :: cs =>
    if c = sep then [] :: splitAt sep cs
    else match splitAt sep cs with
      | [] => [[c]]
      | piece :: pieces => (c :: piece) :: pieces

/-- The value of a digit character, in any base up to 16. -/
def digitValue (c : Char) : Option Nat :=
  let n := c.toNat
  if '0'.toNat ≤ n ∧ n ≤ '9'.toNat then some (n - '0'.toNat)
  else if 'a'.toNat ≤ n ∧ n ≤ 'f'.toNat then some (n - 'a'.toNat + 10)
  else if 'A'.toNat ≤ n ∧ n ≤ 'F'.toNat then some (n - 'A'.toNat + 10)
  else none

/-- A numeral with the digits of a text in a base; it must be well-formed. -/
def parseDigits (radix : Radix) (cs : List Char) : Except ScriptError Numeral :=
  match cs.mapM digitValue with
  | some ds =>
    let n : Numeral := ⟨radix, ds⟩
    if n.wellFormed then .ok n else .error (.badNumeral cs)
  | none => .error (.badNumeral cs)

/-- A numeral: decimal, hexadecimal after `0x`, binary after `0b` (R67). -/
def parseNumeral : List Char → Except ScriptError Numeral
  | '0' :: 'x' :: cs => parseDigits .hex cs
  | '0' :: 'b' :: cs => parseDigits .bin cs
  | cs => parseDigits .dec cs

/-- The operands of a line: numerals between commas, none where the text is empty (R67). -/
def parseOperands (cs : List Char) : Except ScriptError (List Numeral) :=
  if trim cs = [] then .ok [] else (splitAt ',' cs).mapM fun piece => parseNumeral (trim piece)

/-- The line of a mnemonic with its operands (R67, R68). -/
def lineOf (mnemonic : List Char) (ops : List Numeral) : Except ScriptError Line :=
  let ram (t : Tier) (verb : List Char) : Except ScriptError Line :=
    if verb = "READ".toList then
      match ops with
      | [i] => .ok (.ramRead t i none)
      | [i, w] => .ok (.ramRead t i (some w))
      | _ => .error .wrongOperands
    else if verb = "WRITE".toList then
      match ops with
      | [i, w] => .ok (.ramWrite t i w)
      | _ => .error .wrongOperands
    else if verb = "ADV".toList then
      match ops with
      | [w, i, e] => .ok (.ramAdv t w i e)
      | _ => .error .wrongOperands
    else .error (.unknownMnemonic mnemonic)
  match splitAt '.' mnemonic with
  | [block, verb] =>
    if block = "DFF".toList ∧ verb = "ADV".toList then
      match ops with
      | [n] => .ok (.dffAdv n)
      | _ => .error .wrongOperands
    else if block = "BIT".toList ∧ verb = "READ".toList then
      match ops with
      | [] => .ok .bitRead
      | _ => .error .wrongOperands
    else if block = "BIT".toList ∧ verb = "HOLD".toList then
      match ops with
      | [] => .ok (.bitHold none)
      | [v] => .ok (.bitHold (some v))
      | _ => .error .wrongOperands
    else if block = "BIT".toList ∧ verb = "LOAD".toList then
      match ops with
      | [v] => .ok (.bitLoad v)
      | _ => .error .wrongOperands
    else if block = "BIT".toList ∧ verb = "ADV".toList then
      match ops with
      | [v, e] => .ok (.bitAdv v e)
      | _ => .error .wrongOperands
    else if block = "REG".toList ∧ verb = "HOLD".toList then
      match ops with
      | [] => .ok (.regHold none)
      | [w] => .ok (.regHold (some w))
      | _ => .error .wrongOperands
    else if block = "REG".toList ∧ verb = "LOAD".toList then
      match ops with
      | [w] => .ok (.regLoad w)
      | _ => .error .wrongOperands
    else if block = "REG".toList ∧ verb = "ADV".toList then
      match ops with
      | [w, e] => .ok (.regAdv w e)
      | _ => .error .wrongOperands
    else if block = "RAM8".toList then ram .ram8 verb
    else if block = "RAM64".toList then ram .ram64 verb
    else if block = "RAM512".toList then ram .ram512 verb
    else if block = "RAM4096".toList then ram .ram4096 verb
    else if block = "RAM16384".toList then ram .ram16384 verb
    else .error (.unknownMnemonic mnemonic)
  | _ => .error (.unknownMnemonic mnemonic)

/-- A line of text without its comment: its mnemonic up to the first blank, then its operands (R67). That a blank divides
them is the model's choice (log entry 14). -/
def parseLine (cs : List Char) : Except ScriptError Line :=
  let body := trim cs
  match parseOperands (body.dropWhile fun c => !isBlank c) with
  | .ok ops => lineOf (body.takeWhile fun c => !isBlank c) ops
  | .error e => .error e

/-- The commands of a script's text, one for each line that has a mnemonic (R67, R69). DESIGN CHOICE (log entry 14, safe):
lines end at a newline, and a line without a mnemonic, blank or with a comment alone, is left out and not refused; R67's
grammar gives every line a mnemonic, so such a line is no line of it. -/
def assembleScript (text : List Char) : Except ScriptError (List Command) :=
  let lines := ((splitAt '\n' text).map stripComment).filter fun l => trim l ≠ []
  lines.mapM fun l =>
    match parseLine l with
    | .ok line => (assembleLine line).map encode
    | .error e => .error e

/-- The caller takes up a script. -/
def State.load (s : State) (cs : List Command) : State := s.setScript cs

end Sys2Proof.Machine
end

