-- ==== Sys2Proof/Machine/Structure.lean ====
section
/-!
DEFINITION. The structural machine: RAM blocks as nested arrays of children behind a demultiplex/multiplex pair,
each child advanced in every cycle, down to the Word Registers (44_ram8.md R121, 45_composite_ram.md R132, R143).
The step of the model uses the flat form of 20_memory.md R47; R48's claim that the two are the same machine is
stated over this file (log entry 6). One generic block, five instances (R146).
-/

namespace Sys2Proof.Machine.Nested

/-! ### The block types (R24, R25) -/

/-- `reg[0..7]`, each a Word Register's content (R24). -/
abbrev Ram8 := Vector Word 8
/-- `child[0..7]`, each a RAM8 (R25). -/
abbrev Ram64 := Vector Ram8 8
/-- `child[0..7]`, each a RAM64 (R25). -/
abbrev Ram512 := Vector Ram64 8
/-- `child[0..7]`, each a RAM512 (R25). -/
abbrev Ram4096 := Vector Ram512 8
/-- `child[0..3]`, each a RAM4096 (R25). -/
abbrev Ram16384 := Vector Ram4096 4

/-! ### One cycle -/

/-- The base block: split `enable`, advance all eight registers with the shared `value`, select one output by the
same address bits (R121). -/
def ram8Advance (b : Ram8) (value : Word) (address : BitVec 3) (enable : Bool) : Ram8 × Word :=
  let e := dmux8 enable address
  let r (c : Fin 8) := regAdvance b[c.val] value e[c.val]
  (Vector.ofFn fun c => (r c).1, mux8w (Vector.ofFn fun c => (r c).2) address)

/-- An 8-way composite block over any child: the top three address bits split `enable` and select the output, every
child is advanced with the same `value` and the same remaining address bits (R132). -/
def advance8 {C : Type} {kc : Nat} (childAdvance : C → Word → BitVec kc → Bool → C × Word)
    (b : Vector C 8) (value : Word) (address : BitVec (3 + kc)) (enable : Bool) : Vector C 8 × Word :=
  let top := addressSlice address 0 3
  let low := addressSlice address 3 kc
  let e := dmux8 enable top
  let r (c : Fin 8) := childAdvance b[c.val] value low e[c.val]
  (Vector.ofFn fun c => (r c).1, mux8w (Vector.ofFn fun c => (r c).2) top)

/-- The 4-way composite block of the top tier: two address bits, four children (R132, R130). -/
def advance4 {C : Type} {kc : Nat} (childAdvance : C → Word → BitVec kc → Bool → C × Word)
    (b : Vector C 4) (value : Word) (address : BitVec (2 + kc)) (enable : Bool) : Vector C 4 × Word :=
  let top := addressSlice address 0 2
  let low := addressSlice address 2 kc
  let e := dmux4 enable top
  let r (c : Fin 4) := childAdvance b[c.val] value low e[c.val]
  (Vector.ofFn fun c => (r c).1, mux4w (Vector.ofFn fun c => (r c).2) top)

/-- RAM64 over RAM8 (R130, R132). -/
def ram64Advance (b : Ram64) (value : Word) (address : BitVec 6) (enable : Bool) : Ram64 × Word :=
  advance8 (kc := 3) ram8Advance b value address enable

/-- RAM512 over RAM64 (R130, R132). -/
def ram512Advance (b : Ram512) (value : Word) (address : BitVec 9) (enable : Bool) : Ram512 × Word :=
  advance8 (kc := 6) ram64Advance b value address enable

/-- RAM4096 over RAM512 (R130, R132). -/
def ram4096Advance (b : Ram4096) (value : Word) (address : BitVec 12) (enable : Bool) : Ram4096 × Word :=
  advance8 (kc := 9) ram512Advance b value address enable

/-- RAM16384 over RAM4096, the one 4-way tier (R130, R132). -/
def ram16384Advance (b : Ram16384) (value : Word) (address : BitVec 14) (enable : Bool) : Ram16384 × Word :=
  advance4 (kc := 12) ram4096Advance b value address enable

/-! ### The flat view `M` (R37) -/

/-- `M[i]` of a RAM8: the content of `reg[i]` (R37); the reset content where there is no such register. -/
def ram8Word (b : Ram8) (i : Nat) : Word := if h : i < 8 then b[i] else Memory.unlisted

/-- `M[i]` of a composite: `M_j[i mod n_c]` of child `j = floor(i / n_c)` (R37). -/
def childWord {C : Type} {F : Nat} (wordOf : C → Nat → Word) (nc : Nat) (b : Vector C F) (i : Nat) : Word :=
  if h : i / nc < F then wordOf b[i / nc] (i % nc) else Memory.unlisted

/-- `M[i]` of a RAM64 (R37). -/
def ram64Word (b : Ram64) (i : Nat) : Word := childWord ram8Word 8 b i
/-- `M[i]` of a RAM512 (R37). -/
def ram512Word (b : Ram512) (i : Nat) : Word := childWord ram64Word 64 b i
/-- `M[i]` of a RAM4096 (R37). -/
def ram4096Word (b : Ram4096) (i : Nat) : Word := childWord ram512Word 512 b i
/-- `M[i]` of a RAM16384 (R37). -/
def ram16384Word (b : Ram16384) (i : Nat) : Word := childWord ram4096Word 4096 b i

/-! ### The enables that reach the leaves (R125, R142) -/

/-- The enable each register of a RAM8 is advanced with, in register order (R121). -/
def ram8Enables (enable : Bool) (address : BitVec 3) : List Bool := (dmux8 enable address).toList

/-- The enables of the leaves of an 8-way composite, child by child (R132). -/
def enables8 {kc : Nat} (childEnables : Bool → BitVec kc → List Bool) (enable : Bool)
    (address : BitVec (3 + kc)) : List Bool :=
  (dmux8 enable (addressSlice address 0 3)).toList.flatMap fun e => childEnables e (addressSlice address 3 kc)

/-- The enables of the leaves of the 4-way composite, child by child (R132). -/
def enables4 {kc : Nat} (childEnables : Bool → BitVec kc → List Bool) (enable : Bool)
    (address : BitVec (2 + kc)) : List Bool :=
  (dmux4 enable (addressSlice address 0 2)).toList.flatMap fun e => childEnables e (addressSlice address 2 kc)

/-- Leaf enables of a RAM64 (R142). -/
def ram64Enables (enable : Bool) (address : BitVec 6) : List Bool := enables8 (kc := 3) ram8Enables enable address
/-- Leaf enables of a RAM512 (R142). -/
def ram512Enables (enable : Bool) (address : BitVec 9) : List Bool := enables8 (kc := 6) ram64Enables enable address
/-- Leaf enables of a RAM4096 (R142). -/
def ram4096Enables (enable : Bool) (address : BitVec 12) : List Bool :=
  enables8 (kc := 9) ram512Enables enable address
/-- Leaf enables of a RAM16384 (R142). -/
def ram16384Enables (enable : Bool) (address : BitVec 14) : List Bool :=
  enables4 (kc := 12) ram4096Enables enable address

/-! ### The eight blocks -/

/-- One block of each kind, each RAM block in its nested form. -/
structure Tree where
  dff : Bool
  bit : Bool
  reg : Word
  ram8 : Ram8
  ram64 : Ram64
  ram512 : Ram512
  ram4096 : Ram4096
  ram16384 : Ram16384

/-- The nested blocks as constructed: every Bit Cell `false` (R29). -/
def Tree.reset : Tree where
  dff := false
  bit := false
  reg := 0#16
  ram8 := Vector.replicate 8 0#16
  ram64 := Vector.replicate 8 (Vector.replicate 8 0#16)
  ram512 := Vector.replicate 8 (Vector.replicate 8 (Vector.replicate 8 0#16))
  ram4096 := Vector.replicate 8 (Vector.replicate 8 (Vector.replicate 8 (Vector.replicate 8 0#16)))
  ram16384 :=
    Vector.replicate 4 (Vector.replicate 8 (Vector.replicate 8 (Vector.replicate 8 (Vector.replicate 8 0#16))))

/-- One operation on the nested blocks: the new blocks and the output (00_scope.md R11). -/
def cycle (i : Instr) (b : Tree) : Tree × Output :=
  match i with
  | .dffAdv n => let r := dffAdvance b.dff n; ({ b with dff := r.1 }, .dff r.2)
  | .bitRead => (b, .peek (bitPeek b.bit))
  | .bitHold v => let r := bitAdvance b.bit v false; ({ b with bit := r.1 }, .bit r.2)
  | .bitLoad v => let r := bitAdvance b.bit v true; ({ b with bit := r.1 }, .bit r.2)
  | .regHold v => let r := regAdvance b.reg v false; ({ b with reg := r.1 }, .reg r.2)
  | .regLoad v => let r := regAdvance b.reg v true; ({ b with reg := r.1 }, .reg r.2)
  | .ram8Read a v => let r := ram8Advance b.ram8 v a false; ({ b with ram8 := r.1 }, .ram .ram8 r.2)
  | .ram8Write a v => let r := ram8Advance b.ram8 v a true; ({ b with ram8 := r.1 }, .ram .ram8 r.2)
  | .ram64Read a v => let r := ram64Advance b.ram64 v a false; ({ b with ram64 := r.1 }, .ram .ram64 r.2)
  | .ram64Write a v => let r := ram64Advance b.ram64 v a true; ({ b with ram64 := r.1 }, .ram .ram64 r.2)
  | .ram512Read a v => let r := ram512Advance b.ram512 v a false; ({ b with ram512 := r.1 }, .ram .ram512 r.2)
  | .ram512Write a v => let r := ram512Advance b.ram512 v a true; ({ b with ram512 := r.1 }, .ram .ram512 r.2)
  | .ram4096Read a v => let r := ram4096Advance b.ram4096 v a false; ({ b with ram4096 := r.1 }, .ram .ram4096 r.2)
  | .ram4096Write a v => let r := ram4096Advance b.ram4096 v a true; ({ b with ram4096 := r.1 }, .ram .ram4096 r.2)
  | .ram16384Read a v => let r := ram16384Advance b.ram16384 v a false; ({ b with ram16384 := r.1 }, .ram .ram16384 r.2)
  | .ram16384Write a v => let r := ram16384Advance b.ram16384 v a true; ({ b with ram16384 := r.1 }, .ram .ram16384 r.2)

/-- The nested blocks and the flat blocks hold the same contents: every Bit Cell of the one is the same bit of the
other, every `M[i]` the same word (R37). -/
structure Represents (n : Tree) (b : Blocks) : Prop where
  dff : b.dff = n.dff
  bit : b.bit = n.bit
  reg : b.reg = n.reg
  ram8 : ∀ i < 8, b.ram8.read i = ram8Word n.ram8 i
  ram64 : ∀ i < 64, b.ram64.read i = ram64Word n.ram64 i
  ram512 : ∀ i < 512, b.ram512.read i = ram512Word n.ram512 i
  ram4096 : ∀ i < 4096, b.ram4096.read i = ram4096Word n.ram4096 i
  ram16384 : ∀ i < 16384, b.ram16384.read i = ram16384Word n.ram16384 i

end Sys2Proof.Machine.Nested
end

