-- ==== Sys2Proof/Safety.lean ====
section
/-!
DEFINITION. The terms claims are stated in: the invariant of the machine's state, runs of several steps, and the
content a sequence of commands leaves at an address (20_memory.md R49). No run of this machine is unsafe: there is
no fault and no stop (60_exceptions.md R160, 70_reset_and_hazards.md R190).
-/

namespace Sys2Proof.Machine

/-- The invariant of the blocks: each RAM block's memory is in its canonical form, inside its capacity. -/
abbrev Blocks.wf (b : Blocks) : Prop :=
  b.ram8.wf 8 ∧ b.ram64.wf 64 ∧ b.ram512.wf 512 ∧ b.ram4096.wf 4096 ∧ b.ram16384.wf 16384

/-- `n` steps, stopping at the first fault or refusal (00_scope.md R11). -/
def steps : Nat → State → Result
  | 0, s => .next s
  | n + 1, s =>
    match step s with
    | .next t => steps n t
    | .fault r => .fault r
    | .refused r => .refused r

/-- The encoding of an operation as its rule gives it: format, command word, and the `mask` and `match` of its row of
the opcode table (30_encoding.md R61, R63). -/
def EncodedAs (i : Instr) (f : Format) (word mask pattern : Nat) : Prop :=
  (encode i).format = f ∧ (encode i).toNat = word ∧ i.tableMask = mask ∧ i.tableMatch = pattern

/-- The value of the latest write to word `i` of a tier among some operations, oldest first; none where no operation
writes it (R49 (a)). -/
def latestWrite (t : Tier) (i : Nat) : List Instr → Option Word
  | [] => none
  | op :: ops =>
    match latestWrite t i ops with
    | some w => some w
    | none =>
      match ramAccess op with
      | some acc => if acc.tier = t ∧ acc.index = i ∧ acc.enable = true then some acc.value else none
      | none => none

/-- The outputs that belong to a clock edge among some outputs (30_encoding.md R69). -/
def clockedOutputs (os : List Output) : List Output := os.filter Output.clocked

/-- The block an output came from. -/
def Output.block : Output → Block
  | .dff _ => .dff
  | .peek _ | .bit _ => .bit
  | .reg _ => .reg
  | .ram t _ => .ram t

end Sys2Proof.Machine
end

