-- ==== Sys2Proof/Certificates/Slice0/Obligations.lean ====
section
/-!
DEFINITION. The statements for the provers. Each is a `Prop` about the machine over every state, named after what it
says; none is about a program. `R<n>` is a numbered rule of spec/.
-/

open Sys2Proof Sys2Proof.Machine

/-! ### The Bit Cell, the Loadable Bit, the Word Register -/

/-- R91: `DFF.ADV next` outputs the content before the edge and stores `next`; nothing else changes. Its command word is
`next` itself. -/
def Obligations.BitCellStoresNextAndOutputsOld : Prop :=
  ∀ (next : Bool) (s : State),
    exec (.dffAdv next) s = .next { s with dff := next, outputs := s.outputs ++ [.dff s.dff] } ∧
    EncodedAs (.dffAdv next) .dff next.toNat 0 0

/-- R92: over any sequence of advances the outputs of a Bit Cell are its inputs delayed by one cycle with the content
before the first advance in front, and the content left is the last input. -/
def Obligations.BitCellDelaysItsInputByOneCycle : Prop :=
  ∀ (ns : List Bool) (s : State),
    ∃ t, steps ns.length { s with script := ns.map fun n => encode (.dffAdv n) } = .next t ∧
      t.outputs = s.outputs ++ ((s.dff :: ns).dropLast.map Output.dff) ∧
      t.dff = (s.dff :: ns).getLast (List.cons_ne_nil _ _)

/-- R101: `BIT.READ` answers the content, changes no block, takes no clock edge, and answers what the next clocked
operation of the Loadable Bit would output; after reset that is 0. -/
def Obligations.LoadableBitPeekAnswersContent : Prop :=
  (∀ s : State,
    exec .bitRead s = .next { s with outputs := s.outputs ++ [.peek s.bit] } ∧
    (∀ (v e : Bool), ∃ t, exec (if e then .bitLoad v else .bitHold v) s = .next t ∧
      t.outputs = s.outputs ++ [.bit s.bit])) ∧
  clockEdges .bitRead = 0 ∧ State.reset.bit = false ∧ EncodedAs .bitRead .peek 0 0 0

/-- R102: one cycle of the Loadable Bit stores `select(q, value, enable)` and outputs `q`; `BIT.HOLD` and `BIT.LOAD` are
its two branches. -/
def Obligations.LoadableBitStoresTheSelectedValue : Prop :=
  ∀ (value enable : Bool) (s : State),
    exec (if enable then .bitLoad value else .bitHold value) s =
      .next { s with bit := select s.bit value enable, outputs := s.outputs ++ [.bit s.bit] }

/-- R103: `BIT.HOLD` outputs the content and keeps it, whatever `value` is; nothing else changes. -/
def Obligations.LoadableBitHoldKeepsContent : Prop :=
  ∀ (value : Bool) (s : State),
    exec (.bitHold value) s = .next { s with outputs := s.outputs ++ [.bit s.bit] } ∧
    EncodedAs (.bitHold value) .bit (value.toNat) 0b10 0b00

/-- R104: `BIT.LOAD` outputs the old content and stores `value`; nothing else changes. -/
def Obligations.LoadableBitLoadStoresValue : Prop :=
  ∀ (value : Bool) (s : State),
    exec (.bitLoad value) s = .next { s with bit := value, outputs := s.outputs ++ [.bit s.bit] } ∧
    EncodedAs (.bitLoad value) .bit (2 + value.toNat) 0b10 0b10

/-- R112: `REG.HOLD` outputs the content and keeps it, whatever `value` is; nothing else changes. -/
def Obligations.WordRegisterHoldKeepsContent : Prop :=
  ∀ (value : Word) (s : State),
    exec (.regHold value) s = .next { s with outputs := s.outputs ++ [.reg s.reg] } ∧
    EncodedAs (.regHold value) .reg (value.val) 0x10000 0x00000

/-- R113: `REG.LOAD` outputs the old content and stores `value`; nothing else changes. -/
def Obligations.WordRegisterLoadStoresValue : Prop :=
  ∀ (value : Word) (s : State),
    exec (.regLoad value) s = .next { s with reg := value, outputs := s.outputs ++ [.reg s.reg] } ∧
    EncodedAs (.regLoad value) .reg (2 ^ 16 + value.val) 0x10000 0x10000

/-- R111: in one cycle of the Word Register bit `i` of the new content is `select` of bit `i` of the old content and of
`value`, and bit `i` of the output is bit `i` of the old content. -/
def Obligations.WordRegisterMovesBitsInPlace : Prop :=
  ∀ (value : Word) (enable : Bool) (s : State),
    ∃ t w, exec (if enable then .regLoad value else .regHold value) s = .next t ∧
      t.outputs = s.outputs ++ [.reg w] ∧
      ∀ i < 16, wordBit w i = wordBit s.reg i ∧
        wordBit t.reg i = select (wordBit s.reg i) (wordBit value i) enable

/-! ### The RAM blocks -/

/-- R123: `RAM8.READ` outputs the addressed word and changes no word of any block, whatever `value` is.
The second clause says how the address selects the word, the last how the operation is encoded. -/
def Obligations.Ram8ReadOutputsAddressedWord : Prop :=
  ∀ (address : BitVec 3) (value : Word) (s : State),
    exec (.ram8Read address value) s =
      .next { s with outputs := s.outputs ++ [.ram .ram8 (s.ram8.read (idx address))] } ∧
    idx address = 4 * (addressBit address 0).toNat + 2 * (addressBit address 1).toNat + (addressBit address 2).toNat ∧
    EncodedAs (.ram8Read address value) (.ram .ram8) (idx address * 2 ^ 16 + value.val) 0x80000 0

/-- R124: `RAM8.WRITE` outputs the old content of the addressed word and stores `value` there. Every other word of the
block reads as before, and the equation with `s` says every other field of the state is unchanged. The last two clauses
say how the address selects the word and how the operation is encoded. -/
def Obligations.Ram8WriteStoresValueAndOutputsOld : Prop :=
  ∀ (address : BitVec 3) (value : Word) (s : State),
    (∃ t, exec (.ram8Write address value) s = .next t ∧
      t.outputs = s.outputs ++ [.ram .ram8 (s.ram8.read (idx address))] ∧
      t.ram8.read (idx address) = value ∧
      (∀ j, j ≠ idx address → t.ram8.read j = s.ram8.read j) ∧
      { t with ram8 := s.ram8, outputs := s.outputs } = s) ∧
    idx address = 4 * (addressBit address 0).toNat + 2 * (addressBit address 1).toNat + (addressBit address 2).toNat ∧
    EncodedAs (.ram8Write address value) (.ram .ram8) (2 ^ 19 + idx address * 2 ^ 16 + value.val) 0x80000 0x80000

/-- R134: `RAM64.READ` outputs the addressed word and changes no word of any block, whatever `value` is.
The second clause says how the address selects the word, the last how the operation is encoded. -/
def Obligations.Ram64ReadOutputsAddressedWord : Prop :=
  ∀ (address : BitVec 6) (value : Word) (s : State),
    exec (.ram64Read address value) s =
      .next { s with outputs := s.outputs ++ [.ram .ram64 (s.ram64.read (idx address))] } ∧
    idx address = idx (addressSlice address 0 3) * 8 + idx (addressSlice address 3 3) ∧
    EncodedAs (.ram64Read address value) (.ram .ram64) (idx address * 2 ^ 16 + value.val) 0x400000 0

/-- R135: `RAM64.WRITE` outputs the old content of the addressed word and stores `value` there. Every other word of the
block reads as before, and the equation with `s` says every other field of the state is unchanged. The last two clauses
say how the address selects the word and how the operation is encoded. -/
def Obligations.Ram64WriteStoresValueAndOutputsOld : Prop :=
  ∀ (address : BitVec 6) (value : Word) (s : State),
    (∃ t, exec (.ram64Write address value) s = .next t ∧
      t.outputs = s.outputs ++ [.ram .ram64 (s.ram64.read (idx address))] ∧
      t.ram64.read (idx address) = value ∧
      (∀ j, j ≠ idx address → t.ram64.read j = s.ram64.read j) ∧
      { t with ram64 := s.ram64, outputs := s.outputs } = s) ∧
    idx address = idx (addressSlice address 0 3) * 8 + idx (addressSlice address 3 3) ∧
    EncodedAs (.ram64Write address value) (.ram .ram64) (2 ^ 22 + idx address * 2 ^ 16 + value.val) 0x400000 0x400000

/-- R136: `RAM512.READ` outputs the addressed word and changes no word of any block, whatever `value` is.
The second clause says how the address selects the word, the last how the operation is encoded. -/
def Obligations.Ram512ReadOutputsAddressedWord : Prop :=
  ∀ (address : BitVec 9) (value : Word) (s : State),
    exec (.ram512Read address value) s =
      .next { s with outputs := s.outputs ++ [.ram .ram512 (s.ram512.read (idx address))] } ∧
    idx address = idx (addressSlice address 0 3) * 64 + idx (addressSlice address 3 6) ∧
    EncodedAs (.ram512Read address value) (.ram .ram512) (idx address * 2 ^ 16 + value.val) 0x2000000 0

/-- R137: `RAM512.WRITE` outputs the old content of the addressed word and stores `value` there. Every other word of the
block reads as before, and the equation with `s` says every other field of the state is unchanged. The last two clauses
say how the address selects the word and how the operation is encoded. -/
def Obligations.Ram512WriteStoresValueAndOutputsOld : Prop :=
  ∀ (address : BitVec 9) (value : Word) (s : State),
    (∃ t, exec (.ram512Write address value) s = .next t ∧
      t.outputs = s.outputs ++ [.ram .ram512 (s.ram512.read (idx address))] ∧
      t.ram512.read (idx address) = value ∧
      (∀ j, j ≠ idx address → t.ram512.read j = s.ram512.read j) ∧
      { t with ram512 := s.ram512, outputs := s.outputs } = s) ∧
    idx address = idx (addressSlice address 0 3) * 64 + idx (addressSlice address 3 6) ∧
    EncodedAs (.ram512Write address value) (.ram .ram512) (2 ^ 25 + idx address * 2 ^ 16 + value.val) 0x2000000 0x2000000

/-- R138: `RAM4096.READ` outputs the addressed word and changes no word of any block, whatever `value` is.
The second clause says how the address selects the word, the last how the operation is encoded. -/
def Obligations.Ram4096ReadOutputsAddressedWord : Prop :=
  ∀ (address : BitVec 12) (value : Word) (s : State),
    exec (.ram4096Read address value) s =
      .next { s with outputs := s.outputs ++ [.ram .ram4096 (s.ram4096.read (idx address))] } ∧
    idx address = idx (addressSlice address 0 3) * 512 + idx (addressSlice address 3 9) ∧
    EncodedAs (.ram4096Read address value) (.ram .ram4096) (idx address * 2 ^ 16 + value.val) 0x10000000 0

/-- R139: `RAM4096.WRITE` outputs the old content of the addressed word and stores `value` there. Every other word of the
block reads as before, and the equation with `s` says every other field of the state is unchanged. The last two clauses
say how the address selects the word and how the operation is encoded. -/
def Obligations.Ram4096WriteStoresValueAndOutputsOld : Prop :=
  ∀ (address : BitVec 12) (value : Word) (s : State),
    (∃ t, exec (.ram4096Write address value) s = .next t ∧
      t.outputs = s.outputs ++ [.ram .ram4096 (s.ram4096.read (idx address))] ∧
      t.ram4096.read (idx address) = value ∧
      (∀ j, j ≠ idx address → t.ram4096.read j = s.ram4096.read j) ∧
      { t with ram4096 := s.ram4096, outputs := s.outputs } = s) ∧
    idx address = idx (addressSlice address 0 3) * 512 + idx (addressSlice address 3 9) ∧
    EncodedAs (.ram4096Write address value) (.ram .ram4096) (2 ^ 28 + idx address * 2 ^ 16 + value.val) 0x10000000 0x10000000

/-- R140: `RAM16384.READ` outputs the addressed word and changes no word of any block, whatever `value` is.
The second clause says how the address selects the word, the last how the operation is encoded. -/
def Obligations.Ram16384ReadOutputsAddressedWord : Prop :=
  ∀ (address : BitVec 14) (value : Word) (s : State),
    exec (.ram16384Read address value) s =
      .next { s with outputs := s.outputs ++ [.ram .ram16384 (s.ram16384.read (idx address))] } ∧
    idx address = idx (addressSlice address 0 2) * 4096 + idx (addressSlice address 2 12) ∧
    EncodedAs (.ram16384Read address value) (.ram .ram16384) (idx address * 2 ^ 16 + value.val) 0x40000000 0

/-- R141: `RAM16384.WRITE` outputs the old content of the addressed word and stores `value` there. Every other word of the
block reads as before, and the equation with `s` says every other field of the state is unchanged. The last two clauses
say how the address selects the word and how the operation is encoded. -/
def Obligations.Ram16384WriteStoresValueAndOutputsOld : Prop :=
  ∀ (address : BitVec 14) (value : Word) (s : State),
    (∃ t, exec (.ram16384Write address value) s = .next t ∧
      t.outputs = s.outputs ++ [.ram .ram16384 (s.ram16384.read (idx address))] ∧
      t.ram16384.read (idx address) = value ∧
      (∀ j, j ≠ idx address → t.ram16384.read j = s.ram16384.read j) ∧
      { t with ram16384 := s.ram16384, outputs := s.outputs } = s) ∧
    idx address = idx (addressSlice address 0 2) * 4096 + idx (addressSlice address 2 12) ∧
    EncodedAs (.ram16384Write address value) (.ram .ram16384) (2 ^ 30 + idx address * 2 ^ 16 + value.val) 0x40000000 0x40000000

/-- R52, R50: a read of a tier right after a write to it outputs the written value at the written address, and at every
other address the content before the write; the write itself outputs the old content. -/
def Obligations.ReadAfterWriteGivesWrittenValueThereAlone : Prop :=
  ∀ (i j : Instr) (w r : Access) (s : State),
    ramAccess i = some w → w.enable = true → ramAccess j = some r → r.tier = w.tier →
    ∃ t u, exec i s = .next t ∧ exec j t = .next u ∧
      t.outputs = s.outputs ++ [.ram w.tier ((s.mem w.tier).read w.index)] ∧
      u.outputs = t.outputs ++
        [.ram w.tier (if r.index = w.index then w.value else (s.mem w.tier).read r.index)]

/-- R126: a word of a RAM block changes only in a cycle that writes it, and that cycle outputs its old content. -/
def Obligations.OnlyTheAddressedWordChanges : Prop :=
  ∀ (i : Instr) (s t : State) (k : Tier) (j : Nat),
    exec i s = .next t → (t.mem k).read j ≠ (s.mem k).read j →
    ∃ v, ramAccess i = some ⟨k, j, v, true⟩ ∧ (t.mem k).read j = v ∧
      t.outputs = s.outputs ++ [.ram k ((s.mem k).read j)]

/-- R45: writing the same value to the same address again changes no block, and outputs the value. -/
def Obligations.RewritingTheSameValueChangesNothing : Prop :=
  ∀ (i : Instr) (w : Access) (s : State),
    ramAccess i = some w → w.enable = true →
    ∃ t u, exec i s = .next t ∧ exec i t = .next u ∧ u.toBlocks = t.toBlocks ∧
      u.outputs = t.outputs ++ [.ram w.tier w.value]

/-- R64: while `enable` is 0 the `value` field is ignored: two commands that differ in it alone do the same. -/
def Obligations.ValueIsIgnoredWhenNotEnabled : Prop :=
  ∀ s : State,
    (∀ v w, exec (.bitHold v) s = exec (.bitHold w) s) ∧
    (∀ v w, exec (.regHold v) s = exec (.regHold w) s) ∧
    (∀ a v w, exec (.ram8Read a v) s = exec (.ram8Read a w) s) ∧
    (∀ a v w, exec (.ram64Read a v) s = exec (.ram64Read a w) s) ∧
    (∀ a v w, exec (.ram512Read a v) s = exec (.ram512Read a w) s) ∧
    (∀ a v w, exec (.ram4096Read a v) s = exec (.ram4096Read a w) s) ∧
    (∀ a v w, exec (.ram16384Read a v) s = exec (.ram16384Read a w) s)

/-! ### The whole machine -/

/-- R160: every operation answers a next state and one output, for every state and every operand; it never faults and
is never refused. -/
def Obligations.EveryOperationGivesNextStateAndOutput : Prop :=
  ∀ (i : Instr) (s : State), ∃ t o,
    exec i s = .next t ∧ t.outputs = s.outputs ++ [o] ∧ t.script = s.script ∧ o.block = i.block

/-- R36, R11: `exec` is the hardware's own step function over the blocks alone, driven by a caller: the new blocks and the
output are those `advance` gives for the old blocks and the operation, and nothing else changes. That the script and the
outputs seen stand beside the blocks is the model's (log entry 2). -/
def Obligations.BlocksAndInputsAloneGiveNextBlocksAndOutput : Prop :=
  ∀ (i : Instr) (s : State),
    exec i s = .next { s with
      toBlocks := (advance i s.toBlocks).1, outputs := s.outputs ++ [(advance i s.toBlocks).2] }

/-- R69, R36: presenting a whole script, of any commands, ends in the blocks and adds the outputs that the hardware gives
for its operations one after the other, and uses up the script. -/
def Obligations.ScriptRunIsTheHardwareRun : Prop :=
  ∀ (cs rest : List Command) (s : State),
    steps cs.length { s with script := cs ++ rest } = .next {
      toBlocks := (advanceAll (cs.map decode) s.toBlocks).1
      script := rest
      outputs := s.outputs ++ (advanceAll (cs.map decode) s.toBlocks).2 }

/-- R160, R190: a step from any state answers a next state. With no command left that is the model's choice of log
entry 3. -/
def Obligations.EveryStepGivesNextState : Prop := ∀ s : State, ∃ t, step s = .next t

/-- R27: an operation on one block changes no other block. -/
def Obligations.OperationChangesItsOwnBlockOnly : Prop :=
  ∀ (i : Instr) (s : State), ∃ t, exec i s = .next t ∧
    (i.block ≠ .dff → t.dff = s.dff) ∧
    (i.block ≠ .bit → t.bit = s.bit) ∧
    (i.block ≠ .reg → t.reg = s.reg) ∧
    ∀ k : Tier, i.block ≠ .ram k → t.mem k = s.mem k

/-- R45, R112, R103: any sequence of peeks, holds and reads leaves every block as it was. -/
def Obligations.ReadsNeverChangeAnyBlock : Prop :=
  ∀ (n : Nat) (s : State), (∀ c ∈ s.script.take n, readsOnly (decode c) = true) →
    ∃ t, steps n s = .next t ∧ t.toBlocks = s.toBlocks

/-- R49 (a): after any sequence of commands an access of a RAM word outputs the value of the latest of those commands
that wrote the word, or the content before all of them where none did. -/
def Obligations.AccessOutputsLatestWrite : Prop :=
  ∀ (cs : List Command) (c : Command) (acc : Access) (s : State), ramAccess (decode c) = some acc →
    ∃ t os, steps (cs.length + 1) { s with script := cs ++ [c] } = .next t ∧
      t.outputs = s.outputs ++ os ++
        [.ram acc.tier ((latestWrite acc.tier acc.index (cs.map decode)).getD ((s.mem acc.tier).read acc.index))] ∧
      os.length = cs.length

/-- R49 (a) from the reset state: where none of the commands wrote the word, the access outputs `0x0000`. -/
def Obligations.AccessFromResetOutputsLatestWriteOrZero : Prop :=
  ∀ (cs : List Command) (c : Command) (acc : Access), ramAccess (decode c) = some acc →
    ∃ t, steps (cs.length + 1) { State.reset with script := cs ++ [c] } = .next t ∧
      t.outputs.getLast? =
        some (.ram acc.tier ((latestWrite acc.tier acc.index (cs.map decode)).getD 0x0000#16))

/-- R54, R36: two runs of the same script from the same blocks give the same outputs and end in the same blocks,
whatever outputs the callers had seen before. -/
def Obligations.SameScriptGivesSameOutputs : Prop :=
  ∀ (n : Nat) (s s' : State), s.toBlocks = s'.toBlocks → s.script = s'.script →
    ∃ t t' os, steps n s = .next t ∧ steps n s' = .next t' ∧ t.toBlocks = t'.toBlocks ∧
      t.outputs = s.outputs ++ os ∧ t'.outputs = s'.outputs ++ os

/-- R69, R183, R189: each of the first `n` commands of a script gives one output, in order and from its own block, and
as many of them are outputs of a clock edge as the operations take edges. -/
def Obligations.OneOutputPerCommand : Prop :=
  ∀ (n : Nat) (s : State), n ≤ s.script.length →
    ∃ t os, steps n s = .next t ∧ t.outputs = s.outputs ++ os ∧ t.script = s.script.drop n ∧
      os.map Output.block = (s.script.take n).map (fun c => (decode c).block) ∧
      (clockedOutputs os).length = ((s.script.take n).map (fun c => clockEdges (decode c))).sum

/-- R29, R180: after reset every Bit Cell is `false` and every word of every RAM block reads `0x0000`. -/
def Obligations.ResetContentIsZero : Prop :=
  State.reset.dff = false ∧ State.reset.bit = false ∧ State.reset.reg = 0x0000#16 ∧
    ∀ (k : Tier) (i : Nat), (State.reset.mem k).read i = 0x0000#16

/-- Every step keeps every RAM block's memory in its canonical form, inside its capacity. -/
def Obligations.StepKeepsCanonicalMemory : Prop :=
  ∀ s t : State, s.toBlocks.wf → step s = .next t → t.toBlocks.wf

/-- The reset state's memories are in canonical form. -/
def Obligations.ResetMemoryIsCanonical : Prop := State.reset.toBlocks.wf

/-- R37: the words of a block are its whole state: two canonical memories of `n` words that read alike below `n` are
equal. -/
def Obligations.CanonicalMemoryIsDeterminedByItsWords : Prop :=
  ∀ (n : Nat) (m m' : Memory), m.wf n → m'.wf n → (∀ i < n, m.read i = m'.read i) → m = m'

/-- A step with a command left runs the operation the command decodes to, on the state whose script has moved past
the command. -/
def Obligations.StepRunsTheDecodedCommand : Prop :=
  ∀ (c : Command) (rest : List Command) (s : State), s.script = c :: rest →
    step s = exec (decode c) { s with script := rest }

/-- A step with no command left changes nothing (the model's choice, log entry 3). -/
def Obligations.StepAtTheEndOfTheScriptChangesNothing : Prop :=
  ∀ s : State, s.script = [] → step s = .next s

/-- A word placed as the next command is the operation the next step runs, on the state it was placed in. This is the
model's choice, no rule of the spec: that a command is placed in front of a script that stands in the state is log entry 4,
and which format a bare word of `nbits` bits is read in is log entry 8 (R63: the format is not in the word). -/
def Obligations.PlacedWordIsRunByTheNextStep : Prop :=
  ∀ (nbits w : Nat) (i : Instr) (s : State), decodeTableWord nbits w = some i →
    step (s.withFetchWord nbits w) = exec i s

/-! ### The nested blocks -/

/-- R48: on every operation the nested, structural blocks and the flat blocks give the same output and stay the same
contents, from any pair of blocks that hold the same contents. -/
def Obligations.NestedBlocksSimulateFlatBlocks : Prop :=
  ∀ (i : Instr) (n : Nested.Tree) (s : State), Nested.Represents n s.toBlocks →
    ∃ t, exec i s = .next t ∧ Nested.Represents (Nested.cycle i n).1 t.toBlocks ∧
      t.outputs = s.outputs ++ [(Nested.cycle i n).2]

/-- R37: every content of the flat blocks is the content of some nested blocks. -/
def Obligations.EveryFlatContentHasNestedBlocks : Prop :=
  ∀ b : Blocks, ∃ n, Nested.Represents n b

/-- R142, R125: at every tier the leaf at address value `i` is advanced with its enable asserted exactly when the block's
`enable` is asserted and `i` is the addressed leaf. -/
def Obligations.ExactlyTheAddressedLeafIsEnabled : Prop :=
  (∀ e a, Nested.ram8Enables e a = (List.range 8).map fun i => e && decide (i = idx a)) ∧
  (∀ e a, Nested.ram64Enables e a = (List.range 64).map fun i => e && decide (i = idx a)) ∧
  (∀ e a, Nested.ram512Enables e a = (List.range 512).map fun i => e && decide (i = idx a)) ∧
  (∀ e a, Nested.ram4096Enables e a = (List.range 4096).map fun i => e && decide (i = idx a)) ∧
  (∀ e a, Nested.ram16384Enables e a = (List.range 16384).map fun i => e && decide (i = idx a))

/-- R37, D7: the numbering of the words of a block cannot be observed. Under any renaming of the words that gives
different words different names, an access outputs the same and the renamed block stays the renaming of the other. -/
def Obligations.NumberingOfWordsIsUnobservable : Prop :=
  ∀ (rename : Nat → Nat) (m m' : Memory) (i : Nat) (value : Word) (enable : Bool),
    Function.Injective rename → (∀ j, m'.read (rename j) = m.read j) →
    (ramAdvance m' (rename i) value enable).2 = (ramAdvance m i value enable).2 ∧
    ∀ j, (ramAdvance m' (rename i) value enable).1.read (rename j) = (ramAdvance m i value enable).1.read j

/-! ### Addresses and selection -/

/-- R10: the value of an address is the sum of its bits' weights, `a[0]` the most significant. -/
def Obligations.AddressValueIsTheWeightedSumOfItsBits : Prop :=
  ∀ (k : Nat) (a : BitVec k),
    idx a = ((List.range k).map fun i => (addressBit a i).toNat * 2 ^ (k - 1 - i)).sum

/-- R89, R133: the value of an address splits into the value of its top bits times the child's capacity plus the value
of the rest, and different addresses have different values. -/
def Obligations.AddressValueSplitsAtTheTopBits : Prop :=
  (∀ (f kc : Nat) (a : BitVec (f + kc)),
    idx a = idx (addressSlice a 0 f) * 2 ^ kc + idx (addressSlice a f kc)) ∧
  (∀ (k : Nat) (a b : BitVec k), idx a = idx b → a = b) ∧
  ∀ (k i : Nat), i < 2 ^ k → ∃ a : BitVec k, idx a = i

/-- R87: exactly one output of an enabled demultiplexer is 1, none of a disabled one; its index is the index of the word
the multiplexer returns for the same key; and different keys have different indices. -/
def Obligations.DemultiplexerAndMultiplexerPair : Prop :=
  (∀ s : BitVec 3, ∃ c : Fin 8, (∀ d : Fin 8, (dmux8 true s)[d.val] = decide (d = c)) ∧
    ∀ ws : Vector Word 8, mux8w ws s = ws[c.val]) ∧
  (∀ s : BitVec 2, ∃ c : Fin 4, (∀ d : Fin 4, (dmux4 true s)[d.val] = decide (d = c)) ∧
    ∀ ws : Vector Word 4, mux4w ws s = ws[c.val]) ∧
  (∀ s, dmux8 false s = Vector.replicate 8 false) ∧ (∀ s, dmux4 false s = Vector.replicate 4 false) ∧
  (∀ s s', dmux8 true s = dmux8 true s' → s = s') ∧ (∀ s s', dmux4 true s = dmux4 true s' → s = s')

/-- R82, R89: `mux16` returns its first word when `sel` is 0 and its second when `sel` is 1. -/
def Obligations.WordMultiplexerReturnsTheSelectedWord : Prop :=
  ∀ (x y : Word) (sel : Bool), mux16 x y sel = if sel then y else x

/-! ### Encodings -/

/-- R61, R63: the command word of every operation decodes to that operation, with every operand as it was. -/
def Obligations.DecodeOfEncodeIsTheOperation : Prop := ∀ i : Instr, decode (encode i) = i

/-- R61, R64: every command is the command word of the operation it decodes to, so no bit of a command is dropped. -/
def Obligations.EncodeOfDecodeIsTheCommand : Prop := ∀ c : Command, encode (decode c) = c

/-- R61: the command word of a RAM access is `enable * 2^(k+16) + idx(address) * 2^16 + val(value)`, in the format of its
tier. -/
def Obligations.RamCommandWordIsTheWeightedSumOfItsFields : Prop :=
  ∀ (i : Instr) (acc : Access), ramAccess i = some acc →
    (encode i).format = .ram acc.tier ∧
    (encode i).toNat =
      acc.enable.toNat * 2 ^ (Config.addressBits acc.tier + 16) + acc.index * 2 ^ 16 + acc.value.val

/-- R62: the decoder reads `enable` from the top bit of the command, `address[i]` from bit `k+15-i`, `value[i]` from
bit `i`. -/
def Obligations.DecoderReadsEachFieldBit : Prop :=
  (∀ cmd : BitVec 1, decode (.dff cmd) = .dffAdv (cmd.getLsbD 0)) ∧
  (∀ cmd : BitVec 2,
    decode (.bit cmd) = (if cmd.getLsbD 1 then .bitLoad (cmd.getLsbD 0) else .bitHold (cmd.getLsbD 0))) ∧
  (∀ cmd : BitVec 17, ∃ v, decode (.reg cmd) = (if cmd.getLsbD 16 then .regLoad v else .regHold v) ∧
    ∀ i < 16, wordBit v i = cmd.getLsbD i) ∧
  (∀ cmd : BitVec 20, ∃ a v,
    decode (.ram8 cmd) = (if cmd.getLsbD 19 then .ram8Write a v else .ram8Read a v) ∧
    (∀ i < 3, addressBit a i = cmd.getLsbD (18 - i)) ∧ ∀ i < 16, wordBit v i = cmd.getLsbD i) ∧
  (∀ cmd : BitVec 23, ∃ a v,
    decode (.ram64 cmd) = (if cmd.getLsbD 22 then .ram64Write a v else .ram64Read a v) ∧
    (∀ i < 6, addressBit a i = cmd.getLsbD (21 - i)) ∧ ∀ i < 16, wordBit v i = cmd.getLsbD i) ∧
  (∀ cmd : BitVec 26, ∃ a v,
    decode (.ram512 cmd) = (if cmd.getLsbD 25 then .ram512Write a v else .ram512Read a v) ∧
    (∀ i < 9, addressBit a i = cmd.getLsbD (24 - i)) ∧ ∀ i < 16, wordBit v i = cmd.getLsbD i) ∧
  (∀ cmd : BitVec 29, ∃ a v,
    decode (.ram4096 cmd) = (if cmd.getLsbD 28 then .ram4096Write a v else .ram4096Read a v) ∧
    (∀ i < 12, addressBit a i = cmd.getLsbD (27 - i)) ∧ ∀ i < 16, wordBit v i = cmd.getLsbD i) ∧
  (∀ cmd : BitVec 31, ∃ a v,
    decode (.ram16384 cmd) = (if cmd.getLsbD 30 then .ram16384Write a v else .ram16384Read a v) ∧
    (∀ i < 14, addressBit a i = cmd.getLsbD (29 - i)) ∧ ∀ i < 16, wordBit v i = cmd.getLsbD i)

/-- R63: among the operations of a command's format, `match` and `mask` of the opcode table select exactly the one the
command decodes to. -/
def Obligations.OpcodeTableSelectsTheDecodedOperation : Prop :=
  ∀ (c : Command) (i : Instr), (encode i).format = c.format →
    (c.toNat &&& i.tableMask = i.tableMatch ↔ (decode c).tableMatch = i.tableMatch)

/-- The decode table V7 of 95_test_vectors.md, one command of every clocked format and operation kind. -/
def Obligations.SampleCommandWordsDecode : Prop :=
  decodeWord (.ram .ram8) 0xC5555 = .ok (.ram8Write 4 0x5555) ∧
  decodeWord (.ram .ram8) 0x50000 = .ok (.ram8Read 5 0) ∧
  decodeWord (.ram .ram64) 0x6900EF = .ok (.ram64Write 41 0x00EF) ∧
  decodeWord (.ram .ram512) 0x12CFFFF = .ok (.ram512Read 300 0xFFFF) ∧
  decodeWord (.ram .ram4096) 0x15553C3C = .ok (.ram4096Write 1365 0x3C3C) ∧
  decodeWord (.ram .ram16384) 0x40001234 = .ok (.ram16384Write 0 0x1234) ∧
  decodeWord .reg 0x100EF = .ok (.regLoad 0x00EF) ∧
  decodeWord .bit 0b01 = .ok (.bitHold true)

/-- R65: a number is a command of a format exactly when it has no bit at or above the format's width. That a wider number
is rejected by the name `tooWide` is the model's choice (log entry 9): R65 gives a model no error result for it. -/
def Obligations.NumbersTooWideForTheFormatAreNoCommand : Prop :=
  ∀ (f : Format) (w : Nat),
    (w < 2 ^ f.width → ∃ c, Command.ofNat f w = .ok c ∧ c.format = f ∧ c.toNat = w) ∧
    (2 ^ f.width ≤ w → Command.ofNat f w = .error (.tooWide f))

/-! ### Scripts -/

/-- R67: a well-formed line of each mnemonic stands for its operation, with exactly the address and value its numerals
write (an omitted value is the subject of `PseudoOperationsAreTheirExpansions`). The first clause, that a line with an
operand out of range is refused, is the model's choice (log entry 9): R67 does not say it. -/
def Obligations.ScriptLinesStandForTheirOperations : Prop :=
  (∀ l : Line, l.wellFormed = false → assembleLine l = .error .outOfRange) ∧
  (∀ (t : Tier) (a w : Numeral), (Line.ramWrite t a w).wellFormed = true →
    ∃ i v, assembleLine (.ramWrite t a w) = .ok i ∧ ramAccess i = some ⟨t, a.value, v, true⟩ ∧ v.val = w.value) ∧
  (∀ (t : Tier) (a w : Numeral), (Line.ramRead t a (some w)).wellFormed = true →
    ∃ i v, assembleLine (.ramRead t a (some w)) = .ok i ∧ ramAccess i = some ⟨t, a.value, v, false⟩ ∧
      v.val = w.value) ∧
  (∀ w : Numeral, (Line.regLoad w).wellFormed = true →
    ∃ v : Word, assembleLine (.regLoad w) = .ok (.regLoad v) ∧ v.val = w.value) ∧
  (∀ v : Numeral, (Line.bitLoad v).wellFormed = true →
    ∃ b : Bool, assembleLine (.bitLoad v) = .ok (.bitLoad b) ∧ b.toNat = v.value) ∧
  (∀ w : Numeral, (Line.regHold (some w)).wellFormed = true →
    ∃ v : Word, assembleLine (.regHold (some w)) = .ok (.regHold v) ∧ v.val = w.value) ∧
  (∀ v : Numeral, (Line.bitHold (some v)).wellFormed = true →
    ∃ b : Bool, assembleLine (.bitHold (some v)) = .ok (.bitHold b) ∧ b.toNat = v.value) ∧
  assembleLine .bitRead = .ok .bitRead ∧
  ∀ n : Numeral, (Line.dffAdv n).wellFormed = true →
    ∃ b : Bool, assembleLine (.dffAdv n) = .ok (.dffAdv b) ∧ b.toNat = n.value

/-- R68: a pseudo-operation is its expansion: the source's `advance` is a `WRITE` or `LOAD` when its `enable` is 1 and a
`READ` or `HOLD` when it is 0, and an omitted `value` is zero. -/
def Obligations.PseudoOperationsAreTheirExpansions : Prop :=
  (∀ (t : Tier) (v a e : Numeral), e.isBit = true →
    assembleLine (.ramAdv t v a e) =
      if e.value = 1 then assembleLine (.ramWrite t a v) else assembleLine (.ramRead t a (some v))) ∧
  (∀ v e : Numeral, e.isBit = true →
    assembleLine (.regAdv v e) =
      if e.value = 1 then assembleLine (.regLoad v) else assembleLine (.regHold (some v))) ∧
  (∀ v e : Numeral, e.isBit = true →
    assembleLine (.bitAdv v e) =
      if e.value = 1 then assembleLine (.bitLoad v) else assembleLine (.bitHold (some v))) ∧
  (∀ (t : Tier) (a : Numeral), assembleLine (.ramRead t a none) = assembleLine (.ramRead t a (some ⟨.hex, [0]⟩))) ∧
  assembleLine (.regHold none) = assembleLine (.regHold (some ⟨.hex, [0]⟩)) ∧
  assembleLine (.bitHold none) = assembleLine (.bitHold (some ⟨.dec, [0]⟩))
end

