-- ==== Sys2Proof/Laws/Operands.lean ====
section
/-!
SUPPORT. What the operand forms and the selection functions give, bit by bit and child by child
(00_scope.md R9, R10; 40_selection_primitives.md R81 to R86), and the one-cycle functions of the single-bit and
single-word blocks in closed form (43_word_register.md R111).
-/

namespace Sys2Proof.Machine

theorem getLsbD_ofBits (n : Nat) (f : Nat → Bool) (i : Nat) : (ofBits n f).getLsbD i = (decide (i < n) && f i) := by
  induction n with
  | zero => simp [ofBits]
  | succ n ih =>
    rw [ofBits, BitVec.getLsbD_cons, ih]
    by_cases h : i = n
    · simp [h]
    · by_cases h' : i < n
      · simp [h, h', Nat.lt_succ_of_lt h']
      · simp [h, h', show ¬ i < n + 1 by omega]

/-- A word is the word of its bits. -/
theorem ofBits_wordBit (w : Word) : ofBits 16 (wordBit w) = w := by
  apply BitVec.eq_of_getLsbD_eq
  intro i hi
  rw [getLsbD_ofBits]
  simp only [hi, decide_true, Bool.true_and]
  rfl

@[simp] theorem select_false (a b : Bool) : select a b false = a := rfl
@[simp] theorem select_true (a b : Bool) : select a b true = b := rfl

/-- `select` from the scalar operators (40_selection_primitives.md R88). -/
theorem select_eq_gates (a b sel : Bool) :
    select a b sel = scalarOr (scalarAnd a (scalarNot sel)) (scalarAnd b sel) := by
  cases a <;> cases b <;> cases sel <;> rfl

/-- The Loadable Bit's cycle: new content by `select`, output the old content (42_loadable_bit.md R102). -/
theorem bitAdvance_eq (q value enable : Bool) : bitAdvance q value enable = (select q value enable, q) := rfl

/-- The Word Register's cycle in closed form (R111). -/
theorem regAdvance_eq (r value : Word) (enable : Bool) :
    regAdvance r value enable = (if enable then value else r, r) := by
  cases enable <;> simp [regAdvance, bitAdvance_eq, ofBits_wordBit]

theorem dmux8_get (x : Bool) (s : BitVec 3) (c : Nat) (h : c < 8) :
    (dmux8 x s)[c] = (if c = idx s then x else false) := by
  simp [dmux8]

theorem dmux4_get (x : Bool) (s : BitVec 2) (c : Nat) (h : c < 4) :
    (dmux4 x s)[c] = (if c = idx s then x else false) := by
  simp [dmux4]

end Sys2Proof.Machine
end

