-- ==== Sys2Proof/Laws/State.lean ====
section
/-!
SUPPORT. The fields of the blocks and of a state after each named update: one lemma per field per update, so that no later
proof unfolds a record update. A field of the blocks of a state is a field of its `toBlocks`.
-/

namespace Sys2Proof.Machine

/-! ### `Blocks.mem` -/

@[simp] theorem Blocks.mem_ram8 (b : Blocks) : b.mem .ram8 = b.ram8 := rfl
@[simp] theorem Blocks.mem_ram64 (b : Blocks) : b.mem .ram64 = b.ram64 := rfl
@[simp] theorem Blocks.mem_ram512 (b : Blocks) : b.mem .ram512 = b.ram512 := rfl
@[simp] theorem Blocks.mem_ram4096 (b : Blocks) : b.mem .ram4096 = b.ram4096 := rfl
@[simp] theorem Blocks.mem_ram16384 (b : Blocks) : b.mem .ram16384 = b.ram16384 := rfl

/-! ### `Blocks.setDff` -/

@[simp] theorem Blocks.setDff_dff (b : Blocks) (v : Bool) : (b.setDff v).dff = v := rfl
@[simp] theorem Blocks.setDff_bit (b : Blocks) (v : Bool) : (b.setDff v).bit = b.bit := rfl
@[simp] theorem Blocks.setDff_reg (b : Blocks) (v : Bool) : (b.setDff v).reg = b.reg := rfl
@[simp] theorem Blocks.setDff_ram8 (b : Blocks) (v : Bool) : (b.setDff v).ram8 = b.ram8 := rfl
@[simp] theorem Blocks.setDff_ram64 (b : Blocks) (v : Bool) : (b.setDff v).ram64 = b.ram64 := rfl
@[simp] theorem Blocks.setDff_ram512 (b : Blocks) (v : Bool) : (b.setDff v).ram512 = b.ram512 := rfl
@[simp] theorem Blocks.setDff_ram4096 (b : Blocks) (v : Bool) : (b.setDff v).ram4096 = b.ram4096 := rfl
@[simp] theorem Blocks.setDff_ram16384 (b : Blocks) (v : Bool) : (b.setDff v).ram16384 = b.ram16384 := rfl
@[simp] theorem Blocks.setDff_mem (b : Blocks) (v : Bool) (t : Tier) : (b.setDff v).mem t = b.mem t := rfl

/-! ### `Blocks.setBit` -/

@[simp] theorem Blocks.setBit_dff (b : Blocks) (v : Bool) : (b.setBit v).dff = b.dff := rfl
@[simp] theorem Blocks.setBit_bit (b : Blocks) (v : Bool) : (b.setBit v).bit = v := rfl
@[simp] theorem Blocks.setBit_reg (b : Blocks) (v : Bool) : (b.setBit v).reg = b.reg := rfl
@[simp] theorem Blocks.setBit_ram8 (b : Blocks) (v : Bool) : (b.setBit v).ram8 = b.ram8 := rfl
@[simp] theorem Blocks.setBit_ram64 (b : Blocks) (v : Bool) : (b.setBit v).ram64 = b.ram64 := rfl
@[simp] theorem Blocks.setBit_ram512 (b : Blocks) (v : Bool) : (b.setBit v).ram512 = b.ram512 := rfl
@[simp] theorem Blocks.setBit_ram4096 (b : Blocks) (v : Bool) : (b.setBit v).ram4096 = b.ram4096 := rfl
@[simp] theorem Blocks.setBit_ram16384 (b : Blocks) (v : Bool) : (b.setBit v).ram16384 = b.ram16384 := rfl
@[simp] theorem Blocks.setBit_mem (b : Blocks) (v : Bool) (t : Tier) : (b.setBit v).mem t = b.mem t := rfl

/-! ### `Blocks.setReg` -/

@[simp] theorem Blocks.setReg_dff (b : Blocks) (v : Word) : (b.setReg v).dff = b.dff := rfl
@[simp] theorem Blocks.setReg_bit (b : Blocks) (v : Word) : (b.setReg v).bit = b.bit := rfl
@[simp] theorem Blocks.setReg_reg (b : Blocks) (v : Word) : (b.setReg v).reg = v := rfl
@[simp] theorem Blocks.setReg_ram8 (b : Blocks) (v : Word) : (b.setReg v).ram8 = b.ram8 := rfl
@[simp] theorem Blocks.setReg_ram64 (b : Blocks) (v : Word) : (b.setReg v).ram64 = b.ram64 := rfl
@[simp] theorem Blocks.setReg_ram512 (b : Blocks) (v : Word) : (b.setReg v).ram512 = b.ram512 := rfl
@[simp] theorem Blocks.setReg_ram4096 (b : Blocks) (v : Word) : (b.setReg v).ram4096 = b.ram4096 := rfl
@[simp] theorem Blocks.setReg_ram16384 (b : Blocks) (v : Word) : (b.setReg v).ram16384 = b.ram16384 := rfl
@[simp] theorem Blocks.setReg_mem (b : Blocks) (v : Word) (t : Tier) : (b.setReg v).mem t = b.mem t := rfl

/-! ### `Blocks.setMem` -/

@[simp] theorem Blocks.setMem_dff (b : Blocks) (t : Tier) (m : Memory) : (b.setMem t m).dff = b.dff := by
  cases t <;> rfl
@[simp] theorem Blocks.setMem_bit (b : Blocks) (t : Tier) (m : Memory) : (b.setMem t m).bit = b.bit := by
  cases t <;> rfl
@[simp] theorem Blocks.setMem_reg (b : Blocks) (t : Tier) (m : Memory) : (b.setMem t m).reg = b.reg := by
  cases t <;> rfl
@[simp] theorem Blocks.setMem_ram8_ram8 (b : Blocks) (m : Memory) : (b.setMem .ram8 m).ram8 = m := rfl
@[simp] theorem Blocks.setMem_ram64_ram8 (b : Blocks) (m : Memory) : (b.setMem .ram64 m).ram8 = b.ram8 := rfl
@[simp] theorem Blocks.setMem_ram512_ram8 (b : Blocks) (m : Memory) : (b.setMem .ram512 m).ram8 = b.ram8 := rfl
@[simp] theorem Blocks.setMem_ram4096_ram8 (b : Blocks) (m : Memory) : (b.setMem .ram4096 m).ram8 = b.ram8 := rfl
@[simp] theorem Blocks.setMem_ram16384_ram8 (b : Blocks) (m : Memory) : (b.setMem .ram16384 m).ram8 = b.ram8 := rfl
@[simp] theorem Blocks.setMem_ram8_ram64 (b : Blocks) (m : Memory) : (b.setMem .ram8 m).ram64 = b.ram64 := rfl
@[simp] theorem Blocks.setMem_ram64_ram64 (b : Blocks) (m : Memory) : (b.setMem .ram64 m).ram64 = m := rfl
@[simp] theorem Blocks.setMem_ram512_ram64 (b : Blocks) (m : Memory) : (b.setMem .ram512 m).ram64 = b.ram64 := rfl
@[simp] theorem Blocks.setMem_ram4096_ram64 (b : Blocks) (m : Memory) : (b.setMem .ram4096 m).ram64 = b.ram64 := rfl
@[simp] theorem Blocks.setMem_ram16384_ram64 (b : Blocks) (m : Memory) : (b.setMem .ram16384 m).ram64 = b.ram64 := rfl
@[simp] theorem Blocks.setMem_ram8_ram512 (b : Blocks) (m : Memory) : (b.setMem .ram8 m).ram512 = b.ram512 := rfl
@[simp] theorem Blocks.setMem_ram64_ram512 (b : Blocks) (m : Memory) : (b.setMem .ram64 m).ram512 = b.ram512 := rfl
@[simp] theorem Blocks.setMem_ram512_ram512 (b : Blocks) (m : Memory) : (b.setMem .ram512 m).ram512 = m := rfl
@[simp] theorem Blocks.setMem_ram4096_ram512 (b : Blocks) (m : Memory) : (b.setMem .ram4096 m).ram512 = b.ram512 := rfl
@[simp] theorem Blocks.setMem_ram16384_ram512 (b : Blocks) (m : Memory) : (b.setMem .ram16384 m).ram512 = b.ram512 := rfl
@[simp] theorem Blocks.setMem_ram8_ram4096 (b : Blocks) (m : Memory) : (b.setMem .ram8 m).ram4096 = b.ram4096 := rfl
@[simp] theorem Blocks.setMem_ram64_ram4096 (b : Blocks) (m : Memory) : (b.setMem .ram64 m).ram4096 = b.ram4096 := rfl
@[simp] theorem Blocks.setMem_ram512_ram4096 (b : Blocks) (m : Memory) : (b.setMem .ram512 m).ram4096 = b.ram4096 := rfl
@[simp] theorem Blocks.setMem_ram4096_ram4096 (b : Blocks) (m : Memory) : (b.setMem .ram4096 m).ram4096 = m := rfl
@[simp] theorem Blocks.setMem_ram16384_ram4096 (b : Blocks) (m : Memory) : (b.setMem .ram16384 m).ram4096 = b.ram4096 := rfl
@[simp] theorem Blocks.setMem_ram8_ram16384 (b : Blocks) (m : Memory) : (b.setMem .ram8 m).ram16384 = b.ram16384 := rfl
@[simp] theorem Blocks.setMem_ram64_ram16384 (b : Blocks) (m : Memory) : (b.setMem .ram64 m).ram16384 = b.ram16384 := rfl
@[simp] theorem Blocks.setMem_ram512_ram16384 (b : Blocks) (m : Memory) : (b.setMem .ram512 m).ram16384 = b.ram16384 := rfl
@[simp] theorem Blocks.setMem_ram4096_ram16384 (b : Blocks) (m : Memory) : (b.setMem .ram4096 m).ram16384 = b.ram16384 := rfl
@[simp] theorem Blocks.setMem_ram16384_ram16384 (b : Blocks) (m : Memory) : (b.setMem .ram16384 m).ram16384 = m := rfl

@[simp] theorem Blocks.setMem_mem (b : Blocks) (t : Tier) (m : Memory) : (b.setMem t m).mem t = m := by
  cases t <;> rfl

theorem Blocks.setMem_mem_ne (b : Blocks) {t u : Tier} (h : u ≠ t) (m : Memory) :
    (b.setMem t m).mem u = b.mem u := by
  cases t <;> cases u <;> first | rfl | exact absurd rfl h

/-- A memory put back where it came from changes nothing. -/
@[simp] theorem Blocks.setMem_self (b : Blocks) (t : Tier) : b.setMem t (b.mem t) = b := by
  cases t <;> rfl
@[simp] theorem Blocks.setReg_self (b : Blocks) : b.setReg b.reg = b := rfl
@[simp] theorem Blocks.setBit_self (b : Blocks) : b.setBit b.bit = b := rfl

/-! ### `State.see` -/

@[simp] theorem State.see_toBlocks (s : State) (r : Blocks × Output) : (s.see r).toBlocks = r.1 := rfl
@[simp] theorem State.see_script (s : State) (r : Blocks × Output) : (s.see r).script = s.script := rfl
@[simp] theorem State.see_outputs (s : State) (r : Blocks × Output) :
    (s.see r).outputs = s.outputs ++ [r.2] := rfl

/-! ### `State.setScript`, `State.present` -/

@[simp] theorem State.setScript_toBlocks (s : State) (cs : List Command) :
    (s.setScript cs).toBlocks = s.toBlocks := rfl
@[simp] theorem State.setScript_script (s : State) (cs : List Command) : (s.setScript cs).script = cs := rfl
@[simp] theorem State.setScript_outputs (s : State) (cs : List Command) :
    (s.setScript cs).outputs = s.outputs := rfl
@[simp] theorem State.present_toBlocks (s : State) (c : Command) : (s.present c).toBlocks = s.toBlocks := rfl
@[simp] theorem State.present_script (s : State) (c : Command) : (s.present c).script = c :: s.script := rfl
@[simp] theorem State.present_outputs (s : State) (c : Command) : (s.present c).outputs = s.outputs := rfl

end Sys2Proof.Machine
end

