-- ==== Sys2Proof/Laws/Exec.lean ====
section
/-!
SUPPORT. What each shared operation gives, in closed form, and what a step answers. The provers cite these instead of
unfolding the operations.
-/

namespace Sys2Proof.Machine

theorem advanceDff_eq (next : Bool) (b : Blocks) : advanceDff next b = (b.setDff next, .dff b.dff) := rfl

theorem peekBit_eq (b : Blocks) : peekBit b = (b, .peek b.bit) := rfl

theorem advanceBit_eq (value enable : Bool) (b : Blocks) :
    advanceBit value enable b = (b.setBit (select b.bit value enable), .bit b.bit) := rfl

theorem advanceReg_eq (value : Word) (enable : Bool) (b : Blocks) :
    advanceReg value enable b = (b.setReg (if enable then value else b.reg), .reg b.reg) := by
  simp [advanceReg, regAdvance_eq]

theorem advanceRam_eq (t : Tier) (i : Nat) (value : Word) (enable : Bool) (b : Blocks) :
    advanceRam t i value enable b =
      (b.setMem t (if enable then (b.mem t).write i value else b.mem t), .ram t ((b.mem t).read i)) := rfl

/-- Every RAM operation is the advance of its tier at its address value. -/
theorem advance_ramAccess {i : Instr} {a : Access} (h : ramAccess i = some a) (b : Blocks) :
    advance i b = advanceRam a.tier a.index a.value a.enable b := by
  cases i <;> simp [ramAccess] at h <;> subst h <;> rfl

/-- An operation that is no RAM access changes no memory. -/
theorem advance_mem_of_noAccess {i : Instr} (h : ramAccess i = none) (b : Blocks) (t : Tier) :
    (advance i b).1.mem t = b.mem t := by
  cases i <;> simp [ramAccess] at h <;> rfl

theorem fetch_nil {s : State} (h : s.script = []) : fetch s = none := by simp [fetch, h]

theorem fetch_cons {s : State} {c : Command} {rest : List Command} (h : s.script = c :: rest) :
    fetch s = some (c, s.setScript rest) := by simp [fetch, h]

theorem step_nil {s : State} (h : s.script = []) : step s = .next s := by simp [step, fetch_nil h]

theorem step_cons {s : State} {c : Command} {rest : List Command} (h : s.script = c :: rest) :
    step s = exec (decode c) (s.setScript rest) := by simp [step, fetch_cons h]

end Sys2Proof.Machine
end

