-- ==== Sys2Proof/Laws/Memory.lean ====
section
/-!
SUPPORT. The laws of a RAM block's memory: what a word reads as after a write (20_memory.md R47), that every write keeps
the canonical form, and that two memories in canonical form that read alike are equal.
-/

namespace Sys2Proof.Machine.Memory

@[simp] theorem read_nil (i : Nat) : Memory.read [] i = Memory.unlisted := rfl

theorem erase_cons (c : Cell) (m : Memory) (i : Nat) :
    Memory.erase (c :: m) i = if c.1 = i then m.erase i else c :: m.erase i := by
  by_cases h : c.1 = i <;> simp [Memory.erase, h]

theorem read_erase (m : Memory) (i j : Nat) :
    (m.erase i).read j = if i = j then Memory.unlisted else m.read j := by
  induction m with
  | nil => simp [Memory.erase]
  | cons c m ih =>
    rw [erase_cons]
    by_cases hc : c.1 = i
    · by_cases hij : i = j
      · rw [if_pos hc, ih]
        simp [hij]
      · rw [if_pos hc, ih]
        simp [hij, Memory.read, hc]
    · by_cases hj : c.1 = j
      · have hij : i ≠ j := fun h => hc (hj.trans h.symm)
        rw [if_neg hc]
        simp [Memory.read, hj, hij]
      · rw [if_neg hc]
        simp [Memory.read, hj, ih]

theorem read_insert (m : Memory) (i j : Nat) (v : Word) (h : ∀ c ∈ m, c.1 ≠ i) :
    (Memory.insert i v m).read j = if i = j then v else m.read j := by
  induction m with
  | nil => simp [Memory.insert, Memory.read]
  | cons c m ih =>
    have hc : c.1 ≠ i := h c (by simp)
    have ih := ih fun d hd => h d (by simp [hd])
    by_cases hlt : i < c.1
    · simp [Memory.insert, hlt, Memory.read]
    · by_cases hij : i = j
      · subst hij
        simp [Memory.insert, hlt, Memory.read, hc, ih]
      · simp [Memory.insert, hlt, Memory.read, ih, hij]

theorem erase_ne (m : Memory) (i : Nat) : ∀ c ∈ m.erase i, c.1 ≠ i := by
  intro c hc
  simpa using (List.mem_filter.mp hc).2

/-- Read after write: the written word reads as written, every other word as before (R47). -/
theorem read_write (m : Memory) (i j : Nat) (v : Word) :
    (m.write i v).read j = if i = j then v else m.read j := by
  unfold Memory.write
  split
  · next h => rw [read_erase, h]
  · rw [read_insert _ _ _ _ (erase_ne m i), read_erase]
    split <;> simp_all

theorem mem_insert {i : Nat} {v : Word} {m : Memory} {c : Cell} (h : c ∈ Memory.insert i v m) :
    c = (i, v) ∨ c ∈ m := by
  induction m with
  | nil => simpa [Memory.insert] using h
  | cons d m ih =>
    simp only [Memory.insert] at h
    split at h
    · simpa using h
    · rcases List.mem_cons.mp h with h | h
      · exact Or.inr (by simp [h])
      · exact (ih h).imp id fun h => by simp [h]

theorem erase_wf {n : Nat} {m : Memory} (h : m.wf n) (i : Nat) : (m.erase i).wf n :=
  ⟨h.1.filter _, fun c hc => h.2 c (List.mem_filter.mp hc).1⟩

theorem insert_wf {n i : Nat} {v : Word} {m : Memory} (h : m.wf n) (hi : i < n) (hv : v ≠ Memory.unlisted)
    (hne : ∀ c ∈ m, c.1 ≠ i) : (Memory.insert i v m).wf n := by
  refine ⟨?_, fun c hc => ?_⟩
  · have hp := h.1
    clear h
    induction m with
    | nil => simp [Memory.insert]
    | cons d m ih =>
      have hd : d.1 ≠ i := hne d (by simp)
      have hm : ∀ c ∈ m, c.1 ≠ i := fun c hc => hne c (by simp [hc])
      obtain ⟨h1, h2⟩ := List.pairwise_cons.mp hp
      simp only [Memory.insert]
      split
      · next hlt =>
        refine List.pairwise_cons.mpr ⟨fun c hc => ?_, hp⟩
        rcases List.mem_cons.mp hc with rfl | hc
        · exact hlt
        · exact lt_trans hlt (h1 c hc)
      · next hlt =>
        refine List.pairwise_cons.mpr ⟨fun c hc => ?_, ih hm h2⟩
        rcases mem_insert hc with rfl | hc
        · simp only
          omega
        · exact h1 c hc
  · rcases mem_insert hc with rfl | hc
    · exact ⟨hi, hv⟩
    · exact h.2 c hc

/-- A write inside the capacity keeps the canonical form. -/
theorem write_wf {n i : Nat} {v : Word} {m : Memory} (h : m.wf n) (hi : i < n) : (m.write i v).wf n := by
  unfold Memory.write
  split
  · exact erase_wf h i
  · next hv => exact insert_wf (erase_wf h i) hi hv (erase_ne m i)

/-- The empty memory is in canonical form. -/
theorem nil_wf (n : Nat) : Memory.wf n [] := by simp [Memory.wf]

end Sys2Proof.Machine.Memory
end

