-- ==== Sys2Proof/Laws/PerInstr.lean ====
section
/-!
SUPPORT. One lemma per operation: the command word it encodes to has its format's width and the `match` value of its
row under the row's `mask` (30_encoding.md R61, R63).
-/

namespace Sys2Proof.Laws

/-- The command word of an operation fits its format and is selected by its own row of the opcode table. -/
def OwnCommandWord.Statement (i : Instr) : Prop :=
  (encode i).format.fits (encode i).toNat = true ∧ (encode i).toNat &&& i.tableMask = i.tableMatch

theorem mask_bit {n : Nat} (cmd : BitVec n) (b : Nat) :
    cmd.toNat &&& 2 ^ b = (cmd.getLsbD b).toNat * 2 ^ b := by
  rw [Nat.and_two_pow]
  rfl

theorem packBit_enable (e v : Bool) : (packBit e v).getLsbD 1 = e := by cases e <;> cases v <;> rfl

theorem packReg_enable (e : Bool) (v : Word) : (packReg e v).getLsbD 16 = e := by
  rw [packReg, BitVec.getLsbD_append]
  simp

theorem packRam_enable {k : Nat} (e : Bool) (a : BitVec k) (v : Word) : (packRam e a v).getLsbD (16 + k) = e := by
  rw [packRam, BitVec.getLsbD_append, BitVec.getLsbD_append]
  simp

namespace OwnCommandWord

theorem dffAdv (next : Bool) : Statement (.dffAdv next) := by
  cases next <;> exact ⟨rfl, rfl⟩

theorem bitRead : Statement .bitRead := ⟨rfl, rfl⟩

theorem bitHold (value : Bool) : Statement (.bitHold value) := by
  cases value <;> exact ⟨rfl, rfl⟩

theorem bitLoad (value : Bool) : Statement (.bitLoad value) := by
  cases value <;> exact ⟨rfl, rfl⟩

end OwnCommandWord

theorem of_enable {i : Instr} {f : Format} {n : Nat} (cmd : BitVec n) (b : Nat) (e : Bool) (hw : f.width = n)
    (hm : i.tableMask = 2 ^ b) (ht : i.tableMatch = e.toNat * 2 ^ b) (h : cmd.getLsbD b = e) :
    f.fits cmd.toNat = true ∧ cmd.toNat &&& i.tableMask = i.tableMatch :=
  ⟨by simp [Format.fits, hw, cmd.isLt], by rw [hm, ht, mask_bit, h]⟩

namespace OwnCommandWord

theorem regHold (value : Word) : Statement (.regHold value) :=
  of_enable (i := .regHold value) (f := .reg) (packReg false value) 16 false rfl
    (by norm_num [Instr.tableMask]) (by norm_num [Instr.tableMatch]) (packReg_enable _ _)

theorem regLoad (value : Word) : Statement (.regLoad value) :=
  of_enable (i := .regLoad value) (f := .reg) (packReg true value) 16 true rfl
    (by norm_num [Instr.tableMask]) (by norm_num [Instr.tableMatch]) (packReg_enable _ _)

theorem ram8Read (address : BitVec 3) (value : Word) : Statement (.ram8Read address value) :=
  of_enable (i := .ram8Read address value) (f := .ram .ram8) (packRam false address value) 19 false rfl
    (by norm_num [Instr.tableMask]) (by norm_num [Instr.tableMatch]) (packRam_enable _ _ _)

theorem ram8Write (address : BitVec 3) (value : Word) : Statement (.ram8Write address value) :=
  of_enable (i := .ram8Write address value) (f := .ram .ram8) (packRam true address value) 19 true rfl
    (by norm_num [Instr.tableMask]) (by norm_num [Instr.tableMatch]) (packRam_enable _ _ _)

theorem ram64Read (address : BitVec 6) (value : Word) : Statement (.ram64Read address value) :=
  of_enable (i := .ram64Read address value) (f := .ram .ram64) (packRam false address value) 22 false rfl
    (by norm_num [Instr.tableMask]) (by norm_num [Instr.tableMatch]) (packRam_enable _ _ _)

theorem ram64Write (address : BitVec 6) (value : Word) : Statement (.ram64Write address value) :=
  of_enable (i := .ram64Write address value) (f := .ram .ram64) (packRam true address value) 22 true rfl
    (by norm_num [Instr.tableMask]) (by norm_num [Instr.tableMatch]) (packRam_enable _ _ _)

theorem ram512Read (address : BitVec 9) (value : Word) : Statement (.ram512Read address value) :=
  of_enable (i := .ram512Read address value) (f := .ram .ram512) (packRam false address value) 25 false rfl
    (by norm_num [Instr.tableMask]) (by norm_num [Instr.tableMatch]) (packRam_enable _ _ _)

theorem ram512Write (address : BitVec 9) (value : Word) : Statement (.ram512Write address value) :=
  of_enable (i := .ram512Write address value) (f := .ram .ram512) (packRam true address value) 25 true rfl
    (by norm_num [Instr.tableMask]) (by norm_num [Instr.tableMatch]) (packRam_enable _ _ _)

theorem ram4096Read (address : BitVec 12) (value : Word) : Statement (.ram4096Read address value) :=
  of_enable (i := .ram4096Read address value) (f := .ram .ram4096) (packRam false address value) 28 false rfl
    (by norm_num [Instr.tableMask]) (by norm_num [Instr.tableMatch]) (packRam_enable _ _ _)

theorem ram4096Write (address : BitVec 12) (value : Word) : Statement (.ram4096Write address value) :=
  of_enable (i := .ram4096Write address value) (f := .ram .ram4096) (packRam true address value) 28 true rfl
    (by norm_num [Instr.tableMask]) (by norm_num [Instr.tableMatch]) (packRam_enable _ _ _)

theorem ram16384Read (address : BitVec 14) (value : Word) : Statement (.ram16384Read address value) :=
  of_enable (i := .ram16384Read address value) (f := .ram .ram16384) (packRam false address value) 30 false rfl
    (by norm_num [Instr.tableMask]) (by norm_num [Instr.tableMatch]) (packRam_enable _ _ _)

theorem ram16384Write (address : BitVec 14) (value : Word) : Statement (.ram16384Write address value) :=
  of_enable (i := .ram16384Write address value) (f := .ram .ram16384) (packRam true address value) 30 true rfl
    (by norm_num [Instr.tableMask]) (by norm_num [Instr.tableMatch]) (packRam_enable _ _ _)

end OwnCommandWord

end Sys2Proof.Laws
end

