-- ==== Sys2Proof/Tests/Slice0.lean ====
section
/-!
SUPPORT. Tests. Expected results come from the spec: the encodings of 30_encoding.md R61 and the vectors and programs
of 95_test_vectors.md (V1 to V7, P1 to P6), or are worked out by hand from the rule named. Each machine test is one
step on a small state.
-/

open Sys2Proof Sys2Proof.Machine

namespace Sys2Proof.Tests

/-- The state after reset with some fields filled. -/
def small (dff bit : Bool) (reg : Word) (ram8 : Memory) : State :=
  { State.reset with dff := dff, bit := bit, reg := reg, ram8 := ram8 }

/-- The outputs after a step. -/
def outs : Result → List Output
  | .next t => t.outputs
  | .fault _ => []
  | .refused _ => []

/-- What a state holds after a step, by a reading of it. -/
def after {α : Type} (f : State → α) : Result → Option α
  | .next t => some (f t)
  | .fault _ => none
  | .refused _ => none

/-! ### Decoding: words written out from the patterns of R61 -/

theorem test_decode_dffAdv : decodeWord .dff 0b1 = .ok (.dffAdv true) := by decide
theorem test_decode_bitRead : decodeWord .peek 0 = .ok .bitRead := by decide
theorem test_decode_bitHold : decodeWord .bit 0b01 = .ok (.bitHold true) := by decide
theorem test_decode_bitLoad : decodeWord .bit 0b10 = .ok (.bitLoad false) := by decide
theorem test_decode_regHold : decodeWord .reg 0b0_0001001000110100 = .ok (.regHold 0x1234) := by decide
theorem test_decode_regLoad : decodeWord .reg 0b1_0000000011101111 = .ok (.regLoad 0x00EF) := by decide
theorem test_decode_ram8Read :
    decodeWord (.ram .ram8) 0b0_101_0000000000000000 = .ok (.ram8Read 0b101 0) := by decide
theorem test_decode_ram8Write :
    decodeWord (.ram .ram8) 0b1_100_0101010101010101 = .ok (.ram8Write 0b100 0x5555) := by decide
theorem test_decode_ram64Read :
    decodeWord (.ram .ram64) 0b0_101001_0000000000000000 = .ok (.ram64Read 41 0) := by decide
theorem test_decode_ram64Write :
    decodeWord (.ram .ram64) 0b1_101001_0000000011101111 = .ok (.ram64Write 41 0x00EF) := by decide
theorem test_decode_ram512Read :
    decodeWord (.ram .ram512) 0b0_100101100_1111111111111111 = .ok (.ram512Read 300 0xFFFF) := by decide
theorem test_decode_ram512Write :
    decodeWord (.ram .ram512) 0b1_100101100_1010101010101010 = .ok (.ram512Write 300 0xAAAA) := by decide
theorem test_decode_ram4096Read :
    decodeWord (.ram .ram4096) 0b0_101010101010_0000000000000000 = .ok (.ram4096Read 2730 0) := by decide
theorem test_decode_ram4096Write :
    decodeWord (.ram .ram4096) 0b1_010101010101_0011110000111100 = .ok (.ram4096Write 1365 0x3C3C) := by decide
theorem test_decode_ram16384Read :
    decodeWord (.ram .ram16384) 0b0_11111111111111_0000000000000000 = .ok (.ram16384Read 16383 0) := by decide
theorem test_decode_ram16384Write :
    decodeWord (.ram .ram16384) 0b1_00000000000000_0001001000110100 = .ok (.ram16384Write 0 0x1234) := by decide

/-- A number with a bit above the format's width is rejected by name (R65). -/
theorem test_decode_too_wide : decodeWord (.ram .ram8) 0x100000 = .error (.tooWide (.ram .ram8)) := by decide

/-- The opcode table's `match` words at the table's exact widths name their own operations. -/
theorem test_table_exact_widths :
    decodeTableWord 1 0 = some (.dffAdv false) ∧ decodeTableWord 0 0 = some .bitRead ∧
    decodeTableWord 2 0 = some (.bitHold false) ∧ decodeTableWord 2 0x2 = some (.bitLoad false) ∧
    decodeTableWord 17 0 = some (.regHold 0) ∧ decodeTableWord 17 0x10000 = some (.regLoad 0) ∧
    decodeTableWord 20 0 = some (.ram8Read 0 0) ∧ decodeTableWord 20 0x80000 = some (.ram8Write 0 0) ∧
    decodeTableWord 23 0 = some (.ram64Read 0 0) ∧ decodeTableWord 23 0x400000 = some (.ram64Write 0 0) := by decide

theorem test_table_exact_widths_wide :
    decodeTableWord 26 0 = some (.ram512Read 0 0) ∧ decodeTableWord 26 0x2000000 = some (.ram512Write 0 0) ∧
    decodeTableWord 29 0 = some (.ram4096Read 0 0) ∧ decodeTableWord 29 0x10000000 = some (.ram4096Write 0 0) ∧
    decodeTableWord 31 0 = some (.ram16384Read 0 0) ∧ decodeTableWord 31 0x40000000 = some (.ram16384Write 0 0) ∧
    decodeTableWord 40 0 = none ∧ decodeTableWord 20 0x100000 = none := by decide

/-- At whole bytes the word alone must tell the format, and a word with its `enable` bit set does. -/
theorem test_table_whole_bytes :
    decodeTableWord 8 0x2 = some (.bitLoad false) ∧ decodeTableWord 24 0x10000 = some (.regLoad 0) ∧
    decodeTableWord 24 0x80000 = some (.ram8Write 0 0) ∧ decodeTableWord 24 0x400000 = some (.ram64Write 0 0) ∧
    decodeTableWord 32 0x2000000 = some (.ram512Write 0 0) ∧
    decodeTableWord 32 0x10000000 = some (.ram4096Write 0 0) ∧
    decodeTableWord 32 0x40000000 = some (.ram16384Write 0 0) := by decide

/-- The word placed after reset is run by the next step (V5: `RAM8.WRITE 0, 0xFFFF`). -/
theorem test_step_runs_placed_word :
    after (fun t => t.ram8) (step (State.reset.withFetchWord 20 0x8FFFF)) = some [(0, 0xFFFF)] := by decide

/-! ### Ill-formed terms, one for each check -/

theorem smoke_word_too_wide : Format.fits .bit 4 = false := by decide
theorem smoke_numeral_without_digits : Numeral.wellFormed ⟨.dec, []⟩ = false := by decide
theorem smoke_digit_above_base : Numeral.wellFormed ⟨.bin, [1, 2]⟩ = false := by decide
theorem smoke_bit_operand : Numeral.isBit ⟨.dec, [2]⟩ = false := by decide
theorem smoke_word_operand : Numeral.isWord ⟨.dec, [6, 5, 5, 3, 6]⟩ = false := by decide
theorem smoke_address_operand : Numeral.isAddress .ram8 ⟨.dec, [8]⟩ = false := by decide
theorem smoke_lines_of_bits :
    Line.wellFormed (.dffAdv ⟨.dec, [2]⟩) = false ∧ Line.wellFormed (.bitHold (some ⟨.dec, [2]⟩)) = false ∧
    Line.wellFormed (.bitLoad ⟨.dec, [2]⟩) = false ∧ Line.wellFormed (.bitAdv ⟨.dec, [1]⟩ ⟨.dec, [2]⟩) = false := by
  decide
theorem smoke_lines_of_words :
    Line.wellFormed (.regHold (some ⟨.hex, [1, 0, 0, 0, 0]⟩)) = false ∧
    Line.wellFormed (.regLoad ⟨.hex, [1, 0, 0, 0, 0]⟩) = false ∧
    Line.wellFormed (.regAdv ⟨.hex, [0]⟩ ⟨.dec, [2]⟩) = false ∧
    Line.wellFormed (.ramRead .ram64 ⟨.dec, [6, 4]⟩ none) = false ∧
    Line.wellFormed (.ramWrite .ram64 ⟨.dec, [6, 3]⟩ ⟨.hex, [1, 0, 0, 0, 0]⟩) = false ∧
    Line.wellFormed (.ramAdv .ram8 ⟨.hex, [0]⟩ ⟨.dec, [8]⟩ ⟨.dec, [1]⟩) = false := by decide

/-! ### Parameters (00_scope.md R7) -/

/-- 8·8 = 64, 64·8 = 512, 512·8 = 4096, 4096·4 = 16384 = 2^14, and a fan-out of 2^f. -/
theorem test_parameters (t : Tier) :
    Config.capacity t = Config.fanOut t * Config.childCapacity t ∧ Config.capacity t = 2 ^ Config.addressBits t ∧
    Config.fanOut t = 2 ^ Config.bitsConsumed t := by
  cases t <;> decide

/-! ### Selection functions (V1) -/

theorem test_select : select true false false = true ∧ select true false true = false := by decide
theorem test_dmux8 :
    (dmux8 true 0b101).toList = [false, false, false, false, false, true, false, false] ∧
    (dmux8 true 0b011).toList = [false, false, false, true, false, false, false, false] ∧
    (dmux8 false 0b101).toList = List.replicate 8 false := by decide
theorem test_dmux4 : (dmux4 true 0b10).toList = [false, false, true, false] := by decide
theorem test_mux8w : mux8w #v[0x10, 0x11, 0x12, 0x13, 0x14, 0x15, 0x16, 0x17] 0b110 = 0x0016 := by decide
theorem test_mux4w : mux4w #v[0xA, 0xB, 0xC, 0xD] 0b01 = 0x000B := by decide
theorem test_mux16 : mux16 0x00FF 0xFF00 false = 0x00FF ∧ mux16 0x00FF 0xFF00 true = 0xFF00 := by decide
/-- `idx([1,0,1,0,0,1])` is 41, of its reversal 37; `a[0]` is the most significant bit. -/
theorem test_idx :
    idx (0b101001 : BitVec 6) = 41 ∧ idx (0b100101 : BitVec 6) = 37 ∧
    addressBit (0b101001 : BitVec 6) 0 = true ∧ addressBit (0b101001 : BitVec 6) 1 = false ∧
    addressSlice (0b101001 : BitVec 6) 0 3 = 0b101 ∧ addressSlice (0b101001 : BitVec 6) 3 3 = 0b001 := by decide

/-! ### One step of each operation -/

/-- V2 cycle 1: `DFF.ADV 0` on a content of 1. -/
theorem test_dffAdv : outs (exec (.dffAdv false) (small true false 0 [])) = [.dff true] ∧
    after (fun t => t.dff) (exec (.dffAdv false) (small true false 0 [])) = some false := by decide
/-- V3: `BIT.READ` with q = 1. -/
theorem test_bitRead : outs (exec .bitRead (small false true 0 [])) = [.peek true] ∧
    after (fun t => t.bit) (exec .bitRead (small false true 0 [])) = some true := by decide
/-- V3: q = 1, `BIT.HOLD 0`. -/
theorem test_bitHold : outs (exec (.bitHold false) (small false true 0 [])) = [.bit true] ∧
    after (fun t => t.bit) (exec (.bitHold false) (small false true 0 [])) = some true := by decide
/-- V3: q = 1, `BIT.LOAD 0`. -/
theorem test_bitLoad : outs (exec (.bitLoad false) (small false true 0 [])) = [.bit true] ∧
    after (fun t => t.bit) (exec (.bitLoad false) (small false true 0 [])) = some false := by decide
/-- V4 cycle 1: `REG.HOLD 0x1234` on 0xFFFF. -/
theorem test_regHold : outs (exec (.regHold 0x1234) (small false false 0xFFFF [])) = [.reg 0xFFFF] ∧
    after (fun t => t.reg) (exec (.regHold 0x1234) (small false false 0xFFFF [])) = some 0xFFFF := by decide
/-- V4 cycle 3: `REG.LOAD 0x8001` on 0x00EF. -/
theorem test_regLoad : outs (exec (.regLoad 0x8001) (small false false 0x00EF [])) = [.reg 0x00EF] ∧
    after (fun t => t.reg) (exec (.regLoad 0x8001) (small false false 0x00EF [])) = some 0x8001 := by decide
/-- V5: `RAM8.READ 3, 0xFFFF` with M[3] = 0x4444: `value` ignored. -/
theorem test_ram8Read : outs (exec (.ram8Read 3 0xFFFF) (small false false 0 [(3, 0x4444)])) = [.ram .ram8 0x4444] ∧
    after (fun t => t.ram8) (exec (.ram8Read 3 0xFFFF) (small false false 0 [(3, 0x4444)])) =
      some [(3, 0x4444)] := by decide
/-- V5: a fresh RAM8 reads zero at its last address. -/
theorem test_ram8Read_fresh : outs (exec (.ram8Read 7 0) State.reset) = [.ram .ram8 0x0000] := by decide
/-- V5: `RAM8.WRITE 1, 0x0001` with M[1] = 0x2222: the old value out. -/
theorem test_ram8Write : outs (exec (.ram8Write 1 0x0001) (small false false 0 [(1, 0x2222)])) = [.ram .ram8 0x2222] ∧
    after (fun t => t.ram8) (exec (.ram8Write 1 0x0001) (small false false 0 [(1, 0x2222)])) =
      some [(1, 0x0001)] := by decide
/-- V5: a write of zero clears the word; the memory stays in canonical form. -/
theorem test_ram8Write_zero : after (fun t => t.ram8) (exec (.ram8Write 0 0) (small false false 0 [(0, 0xFFFF), (4, 1)])) =
    some [(4, 1)] := by decide
/-- P2: with M[41] = 0x00EF, address 37 (the bit-reversal of 41) reads zero. -/
theorem test_ram64Read : outs (exec (.ram64Read 41 0) { State.reset with ram64 := [(41, 0x00EF)] }) =
      [.ram .ram64 0x00EF] ∧
    outs (exec (.ram64Read 37 0) { State.reset with ram64 := [(41, 0x00EF)] }) = [.ram .ram64 0] := by decide
/-- P2 cycle 0: the write outputs the old content, not the value. -/
theorem test_ram64Write : outs (exec (.ram64Write 41 0x00EF) State.reset) = [.ram .ram64 0] ∧
    after (fun t => t.ram64) (exec (.ram64Write 41 0x00EF) State.reset) = some [(41, 0x00EF)] := by decide
/-- P4: 44 and 300 share their low six bits and are different words. -/
theorem test_ram512Read : outs (exec (.ram512Read 44 0xFFFF) { State.reset with ram512 := [(44, 1), (300, 0x5555)] }) =
    [.ram .ram512 1] := by decide
/-- P4 cycle 1: `RAM512.WRITE 300, 0x5555` over 0xAAAA. -/
theorem test_ram512Write : outs (exec (.ram512Write 300 0x5555) { State.reset with ram512 := [(300, 0xAAAA)] }) =
      [.ram .ram512 0xAAAA] ∧
    after (fun t => t.ram512) (exec (.ram512Write 300 0x5555) { State.reset with ram512 := [(300, 0xAAAA)] }) =
      some [(300, 0x5555)] := by decide
/-- P5: with M[2730] = 0xC3C3, the complementary address 1365 reads zero. -/
theorem test_ram4096Read : outs (exec (.ram4096Read 1365 0) { State.reset with ram4096 := [(2730, 0xC3C3)] }) =
    [.ram .ram4096 0] := by decide
/-- P5 cycle 5: writing zero returns the old word and clears it. -/
theorem test_ram4096Write : outs (exec (.ram4096Write 2730 0) { State.reset with ram4096 := [(2730, 0xC3C3)] }) =
      [.ram .ram4096 0xC3C3] ∧
    after (fun t => t.ram4096) (exec (.ram4096Write 2730 0) { State.reset with ram4096 := [(2730, 0xC3C3)] }) =
      some [] := by decide
/-- P3: the last word of the largest block. -/
theorem test_ram16384Read :
    outs (exec (.ram16384Read 16383 0) { State.reset with ram16384 := [(0, 0x1234), (16383, 0xBEEF)] }) =
      [.ram .ram16384 0xBEEF] ∧
    outs (exec (.ram16384Read 8192 0) { State.reset with ram16384 := [(0, 0x1234), (16383, 0xBEEF)] }) =
      [.ram .ram16384 0] := by decide
/-- P3 cycle 1: no cross-talk between the two extremes. -/
theorem test_ram16384Write :
    after (fun t => t.ram16384) (exec (.ram16384Write 0 0x1234) { State.reset with ram16384 := [(16383, 0xBEEF)] }) =
      some [(0, 0x1234), (16383, 0xBEEF)] := by decide

/-! ### The hardware by itself -/

/-- V4 cycles 0 and 2, with a peek between: the outputs and the end content. -/
theorem test_advanceAll : (advanceAll [.regLoad 0xFFFF, .bitRead, .regLoad 0x00EF] Blocks.reset) =
    ({ Blocks.reset with reg := 0x00EF }, [.reg 0x0000, .peek false, .reg 0xFFFF]) := by decide

/-! ### The nested blocks -/

/-- P1 cycle 12 and the write before it, on the nested RAM8. -/
theorem test_nested_ram8 :
    (Nested.ram8Advance #v[0, 0, 0, 0, 0x5555, 0, 0, 0] 0xFFFF 0b100 false).2 = 0x5555 ∧
    (Nested.ram8Advance #v[0, 0, 0, 0, 0, 0, 0, 0] 0x5555 0b100 true).1.toList = [0, 0, 0, 0, 0x5555, 0, 0, 0] := by
  decide
/-- E6: address 41 of a RAM64 is register 1 of child 5 (R133). -/
theorem test_nested_ram64 :
    Nested.ram64Word (Nested.ram64Advance Nested.Tree.reset.ram64 0x00EF 0b101001 true).1 41 = 0x00EF ∧
    ((Nested.ram64Advance Nested.Tree.reset.ram64 0x00EF 0b101001 true).1[5])[1] = 0x00EF := by decide

/-! ### Scripts (R67, R68) and the dump (D15) -/

theorem test_assemble_line :
    assembleScript "RAM64.WRITE 41, 0x00EF -- call 0".toList = .ok [.ram64 0x6900EF] := by decide
/-- A binary address numeral lists `address[0]` first, and an omitted value is zero. -/
theorem test_assemble_binary :
    assembleScript "RAM64.READ 0b101001".toList = .ok [.ram64 0x290000] := by decide
/-- The source's call, operands in the source's order. -/
theorem test_assemble_pseudo :
    assembleScript "RAM8.ADV 0x5555, 4, 1".toList = .ok [.ram8 0xC5555] ∧
    assembleScript "BIT.ADV 1, 0".toList = .ok [.bit 0b01] ∧
    assembleScript "REG.ADV 0xef, 1".toList = .ok [.reg 0x100EF] := by decide
theorem test_assemble_several_lines :
    assembleScript "DFF.ADV 1\nBIT.READ\n\n  REG.HOLD\n".toList = .ok [.dff 1, .peek, .reg 0] := by decide
theorem test_assemble_rejects :
    assembleScript "RAM8.READ 8".toList = .error .outOfRange ∧
    assembleScript "RAM8.WRITE 1".toList = .error .wrongOperands ∧
    assembleScript "RAM8.READ x".toList = .error (.badNumeral ['x']) ∧
    assembleScript "NOP".toList = .error (.unknownMnemonic ['N', 'O', 'P']) := by decide
theorem test_dump :
    suggestedDump (small false false 0x00EF []).toBlocks .reg = [['0', '0', 'E', 'F']] ∧
    ramWords (small false false 0 [(1, 0xBEEF)]).toBlocks .ram8 = [0, 0xBEEF, 0, 0, 0, 0, 0, 0] := by decide

/-! ### Witnesses: the hypotheses of every statement that has some are met together -/

theorem witness_ReadAfterWriteGivesWrittenValueThereAlone :
    ramAccess (.ram8Write 2 0xAAAA) = some ⟨.ram8, 2, 0xAAAA, true⟩ ∧
    ramAccess (.ram8Read 5 0) = some ⟨.ram8, 5, 0, false⟩ ∧ ramAccess (.ram8Read 2 0) = some ⟨.ram8, 2, 0, false⟩ := by
  decide

theorem witness_OnlyTheAddressedWordChanges :
    ∃ t, exec (.ram64Write 41 0x00EF) State.reset = .next t ∧ (t.mem .ram64).read 41 ≠ (State.reset.mem .ram64).read 41 :=
  ⟨_, rfl, by decide⟩

theorem witness_RewritingTheSameValueChangesNothing :
    ramAccess (.ram16384Write 16383 0xBEEF) = some ⟨.ram16384, 16383, 0xBEEF, true⟩ := by decide

theorem witness_OperationChangesItsOwnBlockOnly :
    Instr.block (.bitLoad true) ≠ .dff ∧ Instr.block (.dffAdv true) ≠ .bit ∧ Instr.block (.dffAdv true) ≠ .reg ∧
    Instr.block (.ram8Write 0 1) ≠ .ram .ram64 := by decide

theorem witness_ReadsNeverChangeAnyBlock :
    ∀ c ∈ ({ State.reset with script := [.peek, .bit 0b01, .ram8 0x7FFFF] } : State).script.take 3,
      readsOnly (decode c) = true := by decide

theorem witness_AccessOutputsLatestWrite :
    ramAccess (decode (.ram8 0x50000)) = some ⟨.ram8, 5, 0, false⟩ ∧
    latestWrite .ram8 5 [.ram8Write 5 1, .ram8Write 5 2, .ram8Write 4 3, .ram64Write 5 4] = some 2 ∧
    latestWrite .ram8 6 [.ram8Write 5 1] = none := by decide

theorem witness_AccessFromResetOutputsLatestWriteOrZero :
    ramAccess (decode (.ram16384 0x7FFFBEEF)) = some ⟨.ram16384, 16383, 0xBEEF, true⟩ := by decide

theorem witness_SameScriptGivesSameOutputs :
    ({ State.reset with script := [.peek], outputs := [.dff true] } : State).toBlocks = State.reset.toBlocks ∧
    ({ State.reset with script := [.peek], outputs := [.dff true] } : State).script =
      ({ State.reset with script := [.peek] } : State).script := ⟨rfl, rfl⟩

theorem witness_OneOutputPerCommand :
    2 ≤ ({ State.reset with script := [.peek, .dff 1] } : State).script.length := by decide

theorem witness_StepKeepsCanonicalMemory :
    ({ small false false 0 [(2, 0xAAAA)] with script := [.ram8 0xC5555] } : State).toBlocks.wf ∧
    ∃ t, step { small false false 0 [(2, 0xAAAA)] with script := [.ram8 0xC5555] } = .next t :=
  ⟨by decide, _, rfl⟩

theorem witness_CanonicalMemoryIsDeterminedByItsWords :
    Memory.wf 8 [(2, 0xAAAA), (7, 1)] ∧ ∀ i < 8, Memory.read [(2, 0xAAAA), (7, 1)] i = Memory.read [(2, 0xAAAA), (7, 1)] i :=
  ⟨by decide, fun _ _ => rfl⟩

/-- What the canonical form leaves out: an address beyond the block, a listed zero, addresses out of order. -/
theorem test_memory_not_canonical :
    ¬ Memory.wf 8 [(8, 1)] ∧ ¬ Memory.wf 8 [(1, 0)] ∧ ¬ Memory.wf 8 [(2, 1), (1, 1)] ∧ ¬ Memory.wf 8 [(1, 1), (1, 2)] := by
  decide

theorem witness_StepRunsTheDecodedCommand :
    ({ State.reset with script := [.dff 1, .peek] } : State).script = .dff 1 :: [.peek] := rfl

theorem witness_StepAtTheEndOfTheScriptChangesNothing : State.reset.script = [] := rfl

theorem witness_PlacedWordIsRunByTheNextStep :
    decodeTableWord 31 0x7FFFBEEF = some (.ram16384Write 16383 0xBEEF) := by decide

theorem witness_NestedBlocksSimulateFlatBlocks : Nested.Represents Nested.Tree.reset State.reset.toBlocks := by
  refine ⟨rfl, rfl, rfl, ?_, ?_, ?_, ?_, ?_⟩ <;> intro i _ <;>
    simp [Nested.Tree.reset, State.reset, Blocks.reset, Nested.ram8Word, Nested.ram64Word, Nested.ram512Word,
      Nested.ram4096Word, Nested.ram16384Word, Nested.childWord, Memory.unlisted]

theorem witness_NumberingOfWordsIsUnobservable :
    Function.Injective (fun i : Nat => i + 1) ∧ ∀ j, Memory.read [(4, 7)] (j + 1) = Memory.read [(3, 7)] j :=
  ⟨fun _ _ h => by simpa using h, fun j => by simp [Memory.read, eq_comm]⟩

theorem witness_AddressValueSplitsAtTheTopBits : 16383 < 2 ^ 14 ∧ idx (0x3FFF : BitVec 14) = 16383 := by decide

theorem witness_RamCommandWordIsTheWeightedSumOfItsFields :
    ramAccess (.ram4096Read 2730 0) = some ⟨.ram4096, 2730, 0, false⟩ := by decide

theorem witness_OpcodeTableSelectsTheDecodedOperation :
    (encode (.ram8Write 0 0)).format = (Command.ram8 0x50000).format := by decide

theorem witness_NumbersTooWideForTheFormatAreNoCommand :
    (2 ^ 31 - 1 < 2 ^ (Format.ram .ram16384).width) ∧ 2 ^ (Format.ram .ram16384).width ≤ 2 ^ 31 := by decide

/-- The boundary values of every clause, and a line of the first clause. -/
theorem witness_ScriptLinesStandForTheirOperations :
    Line.wellFormed (.ramWrite .ram8 ⟨.dec, [8]⟩ ⟨.dec, [0]⟩) = false ∧
    Line.wellFormed (.ramWrite .ram8 ⟨.dec, [7]⟩ ⟨.hex, [15, 15, 15, 15]⟩) = true ∧
    Line.wellFormed (.ramRead .ram16384 ⟨.dec, [1, 6, 3, 8, 3]⟩ (some ⟨.dec, [0]⟩)) = true ∧
    Line.wellFormed (.regLoad ⟨.hex, [15, 15, 15, 15]⟩) = true ∧ Line.wellFormed (.bitLoad ⟨.bin, [1]⟩) = true ∧
    Line.wellFormed (.regHold (some ⟨.dec, [6, 5, 5, 3, 5]⟩)) = true ∧
    Line.wellFormed (.bitHold (some ⟨.dec, [1]⟩)) = true ∧
    Line.wellFormed (.dffAdv ⟨.bin, [0]⟩) = true := by decide

theorem witness_PseudoOperationsAreTheirExpansions :
    Numeral.isBit ⟨.dec, [1]⟩ = true ∧ Numeral.isBit ⟨.dec, [0]⟩ = true := by decide

end Sys2Proof.Tests
end

section
/-!
The value of an address (00_scope.md R10): how `idx` and `addressBit` see an address that is grown by one more bit at
its most significant end, and from it the weighted sum of the bits.
-/

namespace Sys2Proof.Machine

theorem idx_cons {k : Nat} (b : Bool) (a : BitVec k) : idx (a.cons b) = b.toNat * 2 ^ k + idx a := by
  rw [idx, BitVec.toNat_cons', Nat.shiftLeft_eq, idx]

@[simp] theorem addressBit_cons_zero {k : Nat} (b : Bool) (a : BitVec k) : addressBit (a.cons b) 0 = b := by
  simp [addressBit, BitVec.getMsbD_eq_getLsbD, BitVec.getElem_cons]

@[simp] theorem addressBit_cons_succ {k : Nat} (b : Bool) (a : BitVec k) (i : Nat) :
    addressBit (a.cons b) (i + 1) = addressBit a i := by
  by_cases hi : i < k
  · have notTop : k - 1 - i ≠ k := by omega
    have samePlace : k - (i + 1) = k - 1 - i := by omega
    simp [addressBit, BitVec.getMsbD_eq_getLsbD, BitVec.getLsbD_cons, hi, samePlace, notTop]
  · simp [addressBit, BitVec.getMsbD_eq_getLsbD, hi]

/-- An address of nonzero width is its most significant bit in front of the rest. -/
theorem exists_eq_cons {k : Nat} (a : BitVec (k + 1)) : ∃ (b : Bool) (rest : BitVec k), a = rest.cons b :=
  ⟨a.msb, a.setWidth k, (BitVec.cons_msb_setWidth a).symm⟩

/-- Settles O45, by induction on the width: the top bit `b` of `rest.cons b` has the weight `2 ^ k`, and every bit of
`rest` keeps the weight it has in `rest`. -/
theorem addressValueIsTheWeightedSumOfItsBits : Obligations.AddressValueIsTheWeightedSumOfItsBits := by
  intro k
  induction k with
  | zero =>
    intro a
    simp [idx, BitVec.eq_nil a]
  | succ k ih =>
    intro a
    obtain ⟨b, rest, rfl⟩ := exists_eq_cons a
    have sameWeight (i : Nat) : k - 1 - i = k - (i + 1) := by omega
    rw [idx_cons, ih rest, List.sum_range_succ']
    simp only [addressBit_cons_zero, addressBit_cons_succ, Nat.add_sub_cancel, Nat.sub_zero, Nat.succ_eq_add_one,
      sameWeight]

end Sys2Proof.Machine
end

section
/-!
What an operation of the hardware can do to the blocks (10_state.md R27, R36): `exec` is `advance` driven by the caller,
`advance` updates the operation's own block alone, and a step is one such advance or, at the end of the script, nothing.
-/

namespace Sys2Proof.Machine

theorem exec_eq_drive (i : Instr) (s : State) : exec i s = drive (advance i) s := by
  cases i <;> rfl

/-- Settles O25: the caller's `see` of an advance is the record update of the statement. -/
theorem blocksAndInputsAloneGiveNextBlocksAndOutput : Obligations.BlocksAndInputsAloneGiveNextBlocksAndOutput :=
  exec_eq_drive

/-- Every operation updates one block, its own; where that is a RAM block, by the access the operation is. -/
theorem advance_blocks_cases (i : Instr) (b : Blocks) :
    (∃ v, i.block = .dff ∧ (advance i b).1 = b.setDff v) ∨
    (∃ v, i.block = .bit ∧ (advance i b).1 = b.setBit v) ∨
    (∃ w, i.block = .reg ∧ (advance i b).1 = b.setReg w) ∨
    ∃ a, ramAccess i = some a ∧ i.block = .ram a.tier ∧
      (advance i b).1 = b.setMem a.tier (ramAdvance (b.mem a.tier) a.index a.value a.enable).1 := by
  cases i with
  | dffAdv => exact .inl ⟨_, rfl, rfl⟩
  | bitRead | bitHold | bitLoad => exact .inr (.inl ⟨_, rfl, rfl⟩)
  | regHold | regLoad => exact .inr (.inr (.inl ⟨_, rfl, rfl⟩))
  | _ => exact .inr (.inr (.inr ⟨_, rfl, rfl, rfl⟩))

/-- Settles O28: an operation updates its own block, and each update leaves the other blocks as they were. -/
theorem operationChangesItsOwnBlockOnly : Obligations.OperationChangesItsOwnBlockOnly := by
  intro i s
  refine ⟨s.see (advance i s.toBlocks), exec_eq_drive i s, ?_⟩
  simp only [State.see_toBlocks]
  obtain ⟨v, own, new⟩ | ⟨v, own, new⟩ | ⟨w, own, new⟩ | ⟨a, -, own, new⟩ := advance_blocks_cases i s.toBlocks
  · simp [own, new]
  · simp [own, new]
  · simp [own, new]
  · have otherTier (k : Tier) (h : i.block ≠ .ram k) : k ≠ a.tier := fun same => h (same ▸ own)
    simp +contextual [own, new, Blocks.setMem_mem_ne, otherTier]

theorem step_cases {s t : State} (h : step s = .next t) :
    (s.script = [] ∧ t = s) ∨
    ∃ c rest, s.script = c :: rest ∧ t = (s.setScript rest).see (advance (decode c) s.toBlocks) := by
  cases hs : s.script with
  | nil =>
    rw [step_nil hs] at h
    cases h
    exact .inl ⟨rfl, rfl⟩
  | cons c rest =>
    rw [step_cons hs, exec_eq_drive] at h
    cases h
    exact .inr ⟨c, rest, rfl, rfl⟩

end Sys2Proof.Machine
end

section
/-!
The invariant of the blocks (20_memory.md R37, R46): every memory is in canonical form inside its capacity, after reset and
after every step. It is kept because an address of `k` bits is below the capacity `2 ^ k` of its tier.
-/

namespace Sys2Proof.Machine

theorem Blocks.wf_iff_mem (b : Blocks) : b.wf ↔ ∀ t, (b.mem t).wf (Config.capacity t) := by
  constructor
  · rintro ⟨h8, h64, h512, h4096, h16384⟩ t
    cases t <;> assumption
  · intro h
    exact ⟨h .ram8, h .ram64, h .ram512, h .ram4096, h .ram16384⟩

theorem Blocks.setMem_wf {b : Blocks} (h : b.wf) {t : Tier} {m : Memory} (hm : m.wf (Config.capacity t)) :
    (b.setMem t m).wf := by
  rw [Blocks.wf_iff_mem] at h ⊢
  intro u
  by_cases hu : u = t
  · subst hu
    rwa [Blocks.setMem_mem]
  · rw [Blocks.setMem_mem_ne b hu]
    exact h u

theorem ramAccess_index_lt {i : Instr} {a : Access} (h : ramAccess i = some a) : a.index < Config.capacity a.tier := by
  cases i <;> cases h <;> exact idx_lt _

theorem ramAdvance_wf {n i : Nat} {m : Memory} (h : m.wf n) (hi : i < n) (value : Word) (enable : Bool) :
    (ramAdvance m i value enable).1.wf n := by
  cases enable with
  | false => exact h
  | true => exact Memory.write_wf h hi

theorem advance_wf {b : Blocks} (h : b.wf) (i : Instr) : (advance i b).1.wf := by
  obtain ⟨v, -, new⟩ | ⟨v, -, new⟩ | ⟨w, -, new⟩ | ⟨a, access, -, new⟩ := advance_blocks_cases i b <;> rw [new]
  · exact h
  · exact h
  · exact h
  · have inTier : (b.mem a.tier).wf (Config.capacity a.tier) := b.wf_iff_mem.mp h a.tier
    exact Blocks.setMem_wf h (ramAdvance_wf inTier (ramAccess_index_lt access) a.value a.enable)

/-- Settles O35: a step leaves the blocks alone or advances them, and an advance keeps the canonical form. -/
theorem stepKeepsCanonicalMemory : Obligations.StepKeepsCanonicalMemory := by
  intro s t h hstep
  obtain ⟨-, rfl⟩ | ⟨c, rest, -, rfl⟩ := step_cases hstep
  · exact h
  · exact advance_wf h (decode c)

@[simp] theorem reset_mem (t : Tier) : State.reset.mem t = [] := by
  cases t <;> rfl

/-- Settles O36: every memory is empty after reset. -/
theorem resetMemoryIsCanonical : Obligations.ResetMemoryIsCanonical := by
  refine (Blocks.wf_iff_mem _).mpr fun t => ?_
  rw [reset_mem]
  exact Memory.nil_wf _

/-- Settles O34: the three small blocks are constructed as zero, and every memory is empty. -/
theorem resetContentIsZero : Obligations.ResetContentIsZero := by
  refine ⟨rfl, rfl, rfl, fun k i => ?_⟩
  rw [reset_mem]
  exact Memory.read_nil i

end Sys2Proof.Machine
end

section
/-!
A RAM block's memory seen through its words alone (10_state.md R37): the words determine the canonical form, and the
numbering of the words cannot be observed (92_eei_decisions.md D7).
-/

namespace Sys2Proof.Machine.Memory

theorem read_eq_unlisted {m : Memory} {i : Nat} (h : ∀ c ∈ m, c.1 ≠ i) : m.read i = Memory.unlisted := by
  induction m with
  | nil => rfl
  | cons d m ih =>
    obtain ⟨hd, hm⟩ := List.forall_mem_cons.mp h
    rw [Memory.read, if_neg hd, ih hm]

/-- What a memory lists at an address is what it reads there, where addresses rise strictly. -/
theorem read_eq_of_mem {m : Memory} (h : m.Pairwise fun x y => x.1 < y.1) {c : Cell} (hc : c ∈ m) :
    m.read c.1 = c.2 := by
  induction m with
  | nil => cases hc
  | cons d m ih =>
    obtain ⟨below, rising⟩ := List.pairwise_cons.mp h
    rcases List.mem_cons.mp hc with rfl | hc
    · rw [Memory.read, if_pos rfl]
    · rw [Memory.read, if_neg (below c hc).ne, ih rising hc]

/-- A memory in canonical form lists exactly the words of the block that do not read as the unlisted value. -/
theorem mem_iff_read {n : Nat} {m : Memory} (h : m.wf n) (c : Cell) :
    c ∈ m ↔ c.1 < n ∧ c.2 ≠ Memory.unlisted ∧ m.read c.1 = c.2 := by
  obtain ⟨rising, inside⟩ := h
  constructor
  · intro hc
    exact ⟨(inside c hc).1, (inside c hc).2, read_eq_of_mem rising hc⟩
  · rintro ⟨-, listed, hread⟩
    obtain ⟨d, hd, same⟩ : ∃ d ∈ m, d.1 = c.1 := by
      by_contra! absent
      exact listed (hread ▸ read_eq_unlisted absent)
    have : d = c := Prod.ext same (by rw [← hread, ← same, read_eq_of_mem rising hd])
    exact this ▸ hd

/-- Settles O37: both memories list the same cells, and a strictly rising list is determined by its members. -/
theorem canonicalMemoryIsDeterminedByItsWords : Obligations.CanonicalMemoryIsDeterminedByItsWords := by
  intro n m m' h h' same
  have asymm : Std.Asymm fun x y : Cell => x.1 < y.1 := ⟨fun _ _ => Nat.lt_asymm⟩
  refine h.1.eq_of_mem_iff h'.1 fun c => ?_
  rw [mem_iff_read h, mem_iff_read h']
  refine and_congr_right fun inside => ?_
  rw [same c.1 inside]

end Sys2Proof.Machine.Memory

namespace Sys2Proof.Machine

theorem ramAdvance_read (m : Memory) (i j : Nat) (value : Word) (enable : Bool) :
    (ramAdvance m i value enable).1.read j = if enable ∧ i = j then value else m.read j := by
  cases enable with
  | false => simp [ramAdvance]
  | true => simp [ramAdvance, Memory.read_write]

/-- Settles O44: an injective renaming sends the accessed word, and no other word, to the accessed word. -/
theorem numberingOfWordsIsUnobservable : Obligations.NumberingOfWordsIsUnobservable := by
  intro rename m m' i value enable injective same
  refine ⟨same i, fun j => ?_⟩
  simp only [ramAdvance_read, injective.eq_iff, same]

end Sys2Proof.Machine
end

section
/-!
Nested blocks for any words (10_state.md R37): child `c` of a block whose children have `nc` words holds the words from
`c * nc` on, down to the registers.
-/

namespace Sys2Proof.Machine.Nested

/-- The RAM8 whose registers hold the first eight words of `f`. -/
def ram8OfWords (f : Nat → Word) : Ram8 := Vector.ofFn fun c => f c

/-- The composite block of `F` children of `nc` words that holds the words of `f`, each child made by `childOf`. -/
def compositeOfWords {C : Type} (childOf : (Nat → Word) → C) (F nc : Nat) (f : Nat → Word) : Vector C F :=
  Vector.ofFn fun c => childOf fun i => f (c * nc + i)

/-- The RAM64 whose leaves hold the first 64 words of a function; the three tiers above it likewise. -/
def ram64OfWords : (Nat → Word) → Ram64 := compositeOfWords ram8OfWords 8 8
def ram512OfWords : (Nat → Word) → Ram512 := compositeOfWords ram64OfWords 8 64
def ram4096OfWords : (Nat → Word) → Ram4096 := compositeOfWords ram512OfWords 8 512
def ram16384OfWords : (Nat → Word) → Ram16384 := compositeOfWords ram4096OfWords 4 4096

/-- The nested blocks with the contents of the flat ones. -/
def Tree.ofBlocks (b : Blocks) : Tree where
  dff := b.dff
  bit := b.bit
  reg := b.reg
  ram8 := ram8OfWords b.ram8.read
  ram64 := ram64OfWords b.ram64.read
  ram512 := ram512OfWords b.ram512.read
  ram4096 := ram4096OfWords b.ram4096.read
  ram16384 := ram16384OfWords b.ram16384.read

theorem ram8Word_ofWords (f : Nat → Word) : ∀ i < 8, ram8Word (ram8OfWords f) i = f i := by
  intro i hi
  simp [ram8Word, ram8OfWords, hi]

/-- A composite holds the words it is made of if its children do: word `i` is word `i % nc` of child `i / nc`. -/
theorem childWord_ofWords {C : Type} {wordOf : C → Nat → Word} {childOf : (Nat → Word) → C} {nc : Nat}
    (child : ∀ f, ∀ i < nc, wordOf (childOf f) i = f i) (F : Nat) (f : Nat → Word) :
    ∀ i < nc * F, childWord wordOf nc (compositeOfWords childOf F nc f) i = f i := by
  intro i hi
  have inBlock : i / nc < F := Nat.div_lt_of_lt_mul hi
  have inChild : i % nc < nc := Nat.mod_lt i (Nat.pos_of_lt_mul_right hi)
  simp only [childWord, compositeOfWords, dif_pos inBlock, Vector.getElem_ofFn]
  rw [child _ _ inChild, Nat.div_add_mod']

theorem ram64Word_ofWords : ∀ f, ∀ i < 64, ram64Word (ram64OfWords f) i = f i :=
  childWord_ofWords ram8Word_ofWords 8

theorem ram512Word_ofWords : ∀ f, ∀ i < 512, ram512Word (ram512OfWords f) i = f i :=
  childWord_ofWords ram64Word_ofWords 8

theorem ram4096Word_ofWords : ∀ f, ∀ i < 4096, ram4096Word (ram4096OfWords f) i = f i :=
  childWord_ofWords ram512Word_ofWords 8

theorem ram16384Word_ofWords : ∀ f, ∀ i < 16384, ram16384Word (ram16384OfWords f) i = f i :=
  childWord_ofWords ram4096Word_ofWords 4

theorem represents_ofBlocks (b : Blocks) : Represents (Tree.ofBlocks b) b where
  dff := rfl
  bit := rfl
  reg := rfl
  ram8 i hi := (ram8Word_ofWords _ i hi).symm
  ram64 i hi := (ram64Word_ofWords _ i hi).symm
  ram512 i hi := (ram512Word_ofWords _ i hi).symm
  ram4096 i hi := (ram4096Word_ofWords _ i hi).symm
  ram16384 i hi := (ram16384Word_ofWords _ i hi).symm

/-- Settles O42: the nested blocks made of the words of the flat ones hold the same contents. -/
theorem everyFlatContentHasNestedBlocks : Obligations.EveryFlatContentHasNestedBlocks := fun b =>
  ⟨Tree.ofBlocks b, represents_ofBlocks b⟩

end Sys2Proof.Machine.Nested
end

section
/-!
Runs (20_memory.md R54, 70_reset_and_hazards.md R190): a run of `n` steps is the hardware's own run over the next `n`
commands of the script, so every fact about runs below is a fact about `advanceAll`.
-/

namespace Sys2Proof.Machine

theorem steps_nil {s : State} (h : s.script = []) (n : Nat) : steps n s = .next s := by
  induction n with
  | zero => rfl
  | succ n ih => rw [steps, step_nil h]; exact ih

theorem steps_succ_cons {s : State} {c : Command} {rest : List Command} (h : s.script = c :: rest) (n : Nat) :
    steps (n + 1) s = steps n ((s.setScript rest).see (advance (decode c) s.toBlocks)) := by
  rw [steps, step_cons h, exec_eq_drive]
  rfl

/-- The operations of the next `n` commands of the script. -/
def State.nextOps (s : State) (n : Nat) : List Instr := (s.script.take n).map decode

theorem steps_eq_advanceAll (n : Nat) (s : State) :
    steps n s = .next {
      toBlocks := (advanceAll (s.nextOps n) s.toBlocks).1
      script := s.script.drop n
      outputs := s.outputs ++ (advanceAll (s.nextOps n) s.toBlocks).2 } := by
  induction n generalizing s with
  | zero => simp [steps, State.nextOps, advanceAll]
  | succ n ih =>
    cases hs : s.script with
    | nil =>
      obtain ⟨b, script, outputs⟩ := s
      cases hs
      simp [steps_nil, State.nextOps, advanceAll]
    | cons c rest => simp [steps_succ_cons hs, ih, State.nextOps, hs, advanceAll]

theorem advanceAll_concat (ops : List Instr) (op : Instr) (b : Blocks) :
    advanceAll (ops ++ [op]) b =
      ((advance op (advanceAll ops b).1).1, (advanceAll ops b).2 ++ [(advance op (advanceAll ops b).1).2]) := by
  induction ops generalizing b with
  | nil => rfl
  | cons _ ops ih => simp [advanceAll, ih]

theorem advanceAll_outputs_length (ops : List Instr) (b : Blocks) : (advanceAll ops b).2.length = ops.length := by
  induction ops generalizing b with
  | nil => rfl
  | cons _ ops ih => simp [advanceAll, ih]

/-- Settles O32: the blocks after a run and the outputs it adds are those of `advanceAll`, which is given the blocks and
the commands alone. -/
theorem sameScriptGivesSameOutputs : Obligations.SameScriptGivesSameOutputs := by
  intro n s s' blocks script
  have sameOps : s'.nextOps n = s.nextOps n := by rw [State.nextOps, State.nextOps, script]
  refine ⟨_, _, _, steps_eq_advanceAll n s, steps_eq_advanceAll n s', ?_, rfl, ?_⟩ <;> rw [sameOps, blocks]

/-! ### Reads -/

theorem advance_of_readsOnly {op : Instr} (h : readsOnly op = true) (b : Blocks) : (advance op b).1 = b := by
  cases op with
  | bitRead | bitHold => rfl
  | regHold v => exact congrArg Prod.fst (advanceReg_eq v false b)
  | ram8Read | ram64Read | ram512Read | ram4096Read | ram16384Read => rfl
  | _ => cases h

theorem advanceAll_of_readsOnly {ops : List Instr} (h : ∀ op ∈ ops, readsOnly op = true) (b : Blocks) :
    (advanceAll ops b).1 = b := by
  induction ops with
  | nil => rfl
  | cons op ops ih =>
    obtain ⟨first, others⟩ := List.forall_mem_cons.mp h
    rw [advanceAll, advance_of_readsOnly first]
    exact ih others

/-- Settles O29: a run of operations that only read leaves the blocks as each of them does. -/
theorem readsNeverChangeAnyBlock : Obligations.ReadsNeverChangeAnyBlock := fun n s h =>
  ⟨_, steps_eq_advanceAll n s, advanceAll_of_readsOnly (List.forall_mem_map.mpr h) _⟩

end Sys2Proof.Machine
end

section
/-!
RAM accesses one after the other (20_memory.md R45, R47, R49, R52): what a write leaves in the words of a tier, and what
an access outputs after any operations.
-/

namespace Sys2Proof.Machine

theorem exec_ramAccess {i : Instr} {a : Access} (h : ramAccess i = some a) (s : State) :
    exec i s = .next (s.see (advanceRam a.tier a.index a.value a.enable s.toBlocks)) := by
  rw [exec_eq_drive, drive, advance_ramAccess h]

/-- Settles O20: the access reads the memory the write left, whose words `Memory.read_write` gives. -/
theorem readAfterWriteGivesWrittenValueThereAlone : Obligations.ReadAfterWriteGivesWrittenValueThereAlone := by
  intro i j w r s hw enabled hr sameTier
  refine ⟨_, _, exec_ramAccess hw s, exec_ramAccess hr _, rfl, ?_⟩
  simp [advanceRam_eq, sameTier, enabled, Memory.read_write, eq_comm (a := r.index)]

theorem Memory.erase_eq_self {m : Memory} {i : Nat} (h : ∀ c ∈ m, c.1 ≠ i) : m.erase i = m := by
  simpa [Memory.erase] using h

theorem Memory.erase_insert {m : Memory} {i : Nat} (h : ∀ c ∈ m, c.1 ≠ i) (v : Word) :
    (Memory.insert i v m).erase i = m := by
  induction m with
  | nil => simp [Memory.insert, Memory.erase]
  | cons c m ih =>
    obtain ⟨hc, hm⟩ := List.forall_mem_cons.mp h
    rw [Memory.insert]
    split
    · rw [Memory.erase_cons, if_pos rfl, Memory.erase_eq_self h]
    · rw [Memory.erase_cons, if_neg hc, ih hm]

theorem Memory.erase_write (m : Memory) (i : Nat) (v : Word) : (m.write i v).erase i = m.erase i := by
  rw [Memory.write]
  split
  · exact Memory.erase_eq_self (Memory.erase_ne m i)
  · exact Memory.erase_insert (Memory.erase_ne m i) v

/-- The last of two writes to a word decides, in the very list of cells and not in its words alone. -/
theorem Memory.write_write (m : Memory) (i : Nat) (v w : Word) : (m.write i v).write i w = m.write i w := by
  rw [Memory.write, Memory.erase_write, ← Memory.write]

@[simp] theorem Blocks.setMem_setMem (b : Blocks) (t : Tier) (m m' : Memory) :
    (b.setMem t m).setMem t m' = b.setMem t m' := by
  cases t <;> rfl

/-- Settles O22: the second write erases the cell the first one listed and lists the same again. -/
theorem rewritingTheSameValueChangesNothing : Obligations.RewritingTheSameValueChangesNothing := by
  intro i w s hw enabled
  refine ⟨_, _, exec_ramAccess hw s, exec_ramAccess hw _, ?_, ?_⟩
  · simp [advanceRam_eq, enabled, Memory.write_write]
  · simp [advanceRam_eq, enabled, Memory.read_write]

/-! ### The latest write -/

theorem latestWrite_cons (t : Tier) (j : Nat) (op : Instr) (ops : List Instr) :
    latestWrite t j (op :: ops) = (latestWrite t j ops).or (latestWrite t j [op]) := by
  cases h : latestWrite t j ops <;> simp [latestWrite, h]

theorem latestWrite_singleton {op : Instr} {a : Access} (h : ramAccess op = some a) (t : Tier) (j : Nat) :
    latestWrite t j [op] = if a.tier = t ∧ a.index = j ∧ a.enable = true then some a.value else none := by
  simp [latestWrite, h]

theorem read_advance (op : Instr) (b : Blocks) (t : Tier) (j : Nat) :
    ((advance op b).1.mem t).read j = (latestWrite t j [op]).getD ((b.mem t).read j) := by
  cases h : ramAccess op with
  | none => simp [advance_mem_of_noAccess h, latestWrite, h]
  | some a =>
    rw [advance_ramAccess h, latestWrite_singleton h]
    by_cases ht : t = a.tier
    · subst ht
      simp only [advanceRam, Blocks.setMem_mem, ramAdvance_read, true_and, and_comm (a := a.index = j)]
      split <;> rfl
    · simp [advanceRam, Blocks.setMem_mem_ne _ ht, Ne.symm ht]

theorem read_advanceAll (ops : List Instr) (b : Blocks) (t : Tier) (j : Nat) :
    ((advanceAll ops b).1.mem t).read j = (latestWrite t j ops).getD ((b.mem t).read j) := by
  induction ops generalizing b with
  | nil => rfl
  | cons op ops ih =>
    rw [advanceAll, latestWrite_cons, Option.getD_or, ← read_advance]
    exact ih _

/-- Settles O30: the access outputs the word it finds in the blocks the commands before it left. -/
theorem accessOutputsLatestWrite : Obligations.AccessOutputsLatestWrite := by
  intro cs c acc s access
  refine ⟨_, (advanceAll (cs.map decode) s.toBlocks).2, steps_eq_advanceAll _ _, ?_, ?_⟩
  · have allOps : State.nextOps { s with script := cs ++ [c] } (cs.length + 1) = cs.map decode ++ [decode c] := by
      simp [State.nextOps, List.take_of_length_le]
    simp [allOps, advanceAll_concat, advance_ramAccess access, advanceRam_eq, read_advanceAll]
  · simp [advanceAll_outputs_length]

/-- Settles O31: every word is zero before the first command. -/
theorem accessFromResetOutputsLatestWriteOrZero : Obligations.AccessFromResetOutputsLatestWriteOrZero := by
  intro cs c acc access
  obtain ⟨t, os, run, outputs, -⟩ := accessOutputsLatestWrite cs c acc State.reset access
  refine ⟨t, run, ?_⟩
  rw [outputs, reset_mem, Memory.read_nil, List.getLast?_concat]
  rfl

end Sys2Proof.Machine
end

section
/-!
The nested blocks in closed form (20_memory.md R48, 45_composite_ram.md R132): a tier's cycle outputs the word at the
address and stores `value` there alone. A composite has this form if its children have it, because the top bits of an
address name the child of its word and the remaining bits the word within the child (R133).
-/

namespace Sys2Proof.Machine

theorem idx_addressSlice_top {f kc : Nat} (a : BitVec (f + kc)) : idx (addressSlice a 0 f) = idx a / 2 ^ kc := by
  have inTop : idx a / 2 ^ kc < 2 ^ f := Nat.div_lt_of_lt_mul (by rw [← Nat.pow_add']; exact idx_lt a)
  simpa [idx, addressSlice, Nat.shiftRight_eq_div_pow] using Nat.mod_eq_of_lt inTop

theorem idx_addressSlice_rest {f kc : Nat} (a : BitVec (f + kc)) : idx (addressSlice a f kc) = idx a % 2 ^ kc := by
  simp [idx, addressSlice]

end Sys2Proof.Machine

namespace Sys2Proof.Machine.Nested

/-- A nested block with words `wordOf` and cycle `cycleOf` acts as a flat block of `2 ^ k` words (R47): it outputs the
addressed word, and that word alone takes `value`, if enabled. -/
structure ActsFlat {C : Type} {k : Nat} (wordOf : C → Nat → Word) (cycleOf : C → Word → BitVec k → Bool → C × Word) :
    Prop where
  output : ∀ b value address enable, (cycleOf b value address enable).2 = wordOf b (idx address)
  word : ∀ b value address enable, ∀ i < 2 ^ k, wordOf (cycleOf b value address enable).1 i =
    if enable ∧ idx address = i then value else wordOf b i

theorem ram8_actsFlat : ActsFlat ram8Word ram8Advance where
  output b value address enable := by
    simp [ram8Advance, mux8w, regAdvance_eq, ram8Word, show idx address < 8 from idx_lt address]
  word b value address enable i hi := by
    have inBlock : i < 8 := hi
    simp [ram8Advance, ram8Word, inBlock, regAdvance_eq, dmux8_get, and_comm, eq_comm (a := i)]

theorem childWord_eq {C : Type} {F : Nat} (wordOf : C → Nat → Word) {nc : Nat} (b : Vector C F) {i : Nat}
    (h : i / nc < F) : childWord wordOf nc b i = wordOf b[i / nc] (i % nc) :=
  dif_pos h

/-- The addressed word of a composite is the word at the remaining bits of the child of the top bits (R133). -/
theorem childWord_idx {C : Type} {f kc : Nat} (wordOf : C → Nat → Word) (b : Vector C (2 ^ f))
    (address : BitVec (f + kc)) :
    childWord wordOf (2 ^ kc) b (idx address) =
      wordOf (b[idx (addressSlice address 0 f)]'(idx_lt _)) (idx (addressSlice address f kc)) := by
  have inBlock : idx address / 2 ^ kc < 2 ^ f := idx_addressSlice_top address ▸ idx_lt _
  rw [childWord_eq _ _ inBlock, idx_addressSlice_rest]
  simp only [idx_addressSlice_top]

section Composite
variable {C : Type} {kc : Nat} {wordOf : C → Nat → Word} {childAdvance : C → Word → BitVec kc → Bool → C × Word}

/-- One cycle of a composite of `2 ^ f` children, each advanced, with the enable for the child of the top bits alone. -/
theorem childWord_advance (child : ActsFlat wordOf childAdvance) {f : Nat} {b b' : Vector C (2 ^ f)} {value : Word}
    {address : BitVec (f + kc)} {enable : Bool}
    (advanced : ∀ (c : Nat) (hc : c < 2 ^ f), b'[c] = (childAdvance b[c] value (addressSlice address f kc)
      (if c = idx (addressSlice address 0 f) then enable else false)).1) :
    ∀ i < 2 ^ (f + kc), childWord wordOf (2 ^ kc) b' i =
      if enable ∧ idx address = i then value else childWord wordOf (2 ^ kc) b i := by
  intro i hi
  have inBlock : i / 2 ^ kc < 2 ^ f := Nat.div_lt_of_lt_mul (by rwa [← Nat.pow_add'])
  have sameWord : idx address = i ↔ i / 2 ^ kc = idx address / 2 ^ kc ∧ idx address % 2 ^ kc = i % 2 ^ kc := by
    rw [Nat.ext_div_mod_iff (2 ^ kc), eq_comm (a := i / 2 ^ kc)]
  rw [childWord_eq _ _ inBlock, childWord_eq _ _ inBlock, advanced _ inBlock,
    child.word _ _ _ _ _ (Nat.mod_lt _ (Nat.two_pow_pos kc)), idx_addressSlice_top, idx_addressSlice_rest]
  by_cases sameChild : i / 2 ^ kc = idx address / 2 ^ kc <;> simp [sameWord, sameChild]

theorem advance8_actsFlat (child : ActsFlat wordOf childAdvance) :
    ActsFlat (childWord wordOf (2 ^ kc)) (advance8 childAdvance) where
  output b value address enable := by
    simp only [advance8, mux8w, Vector.getElem_ofFn, child.output]
    exact (childWord_idx (f := 3) wordOf b address).symm
  word b value address enable := by
    refine childWord_advance (f := 3) child fun c hc => ?_
    simp only [advance8, Vector.getElem_ofFn, dmux8_get]

theorem advance4_actsFlat (child : ActsFlat wordOf childAdvance) :
    ActsFlat (childWord wordOf (2 ^ kc)) (advance4 childAdvance) where
  output b value address enable := by
    simp only [advance4, mux4w, Vector.getElem_ofFn, child.output]
    exact (childWord_idx (f := 2) wordOf b address).symm
  word b value address enable := by
    refine childWord_advance (f := 2) child fun c hc => ?_
    simp only [advance4, Vector.getElem_ofFn, dmux4_get]

end Composite

theorem ram64_actsFlat : ActsFlat ram64Word ram64Advance := advance8_actsFlat ram8_actsFlat
theorem ram512_actsFlat : ActsFlat ram512Word ram512Advance := advance8_actsFlat ram64_actsFlat
theorem ram4096_actsFlat : ActsFlat ram4096Word ram4096Advance := advance8_actsFlat ram512_actsFlat
theorem ram16384_actsFlat : ActsFlat ram16384Word ram16384Advance := advance4_actsFlat ram4096_actsFlat

section Simulation
variable {C : Type} {k : Nat} {wordOf : C → Nat → Word} {cycleOf : C → Word → BitVec k → Bool → C × Word}
  {m : Memory} {b : C}

/-- The flat memory and the nested block hold the same words after the same access. -/
theorem ActsFlat.read_ramAdvance (acts : ActsFlat wordOf cycleOf) (same : ∀ i < 2 ^ k, m.read i = wordOf b i)
    (value : Word) (address : BitVec k) (enable : Bool) :
    ∀ i < 2 ^ k, (ramAdvance m (idx address) value enable).1.read i = wordOf (cycleOf b value address enable).1 i := by
  intro i hi
  rw [ramAdvance_read, acts.word _ _ _ _ i hi, same i hi]

theorem ActsFlat.output_ramAdvance (acts : ActsFlat wordOf cycleOf) (same : ∀ i < 2 ^ k, m.read i = wordOf b i)
    (value : Word) (address : BitVec k) (enable : Bool) :
    (ramAdvance m (idx address) value enable).2 = (cycleOf b value address enable).2 :=
  (same _ (idx_lt address)).trans (acts.output ..).symm

end Simulation

theorem represents_cycle {n : Tree} {b : Blocks} (h : Represents n b) (i : Instr) :
    Represents (cycle i n).1 (advance i b).1 := by
  cases i with
  | dffAdv => exact { h with dff := rfl }
  | bitRead => exact h
  | bitHold v => exact { h with bit := congrArg (bitAdvance · v false |>.1) h.bit }
  | bitLoad v => exact { h with bit := congrArg (bitAdvance · v true |>.1) h.bit }
  | regHold v => exact { h with reg := congrArg (regAdvance · v false |>.1) h.reg }
  | regLoad v => exact { h with reg := congrArg (regAdvance · v true |>.1) h.reg }
  | ram8Read a v => exact { h with ram8 := ram8_actsFlat.read_ramAdvance h.ram8 v a false }
  | ram8Write a v => exact { h with ram8 := ram8_actsFlat.read_ramAdvance h.ram8 v a true }
  | ram64Read a v => exact { h with ram64 := ram64_actsFlat.read_ramAdvance h.ram64 v a false }
  | ram64Write a v => exact { h with ram64 := ram64_actsFlat.read_ramAdvance h.ram64 v a true }
  | ram512Read a v => exact { h with ram512 := ram512_actsFlat.read_ramAdvance h.ram512 v a false }
  | ram512Write a v => exact { h with ram512 := ram512_actsFlat.read_ramAdvance h.ram512 v a true }
  | ram4096Read a v => exact { h with ram4096 := ram4096_actsFlat.read_ramAdvance h.ram4096 v a false }
  | ram4096Write a v => exact { h with ram4096 := ram4096_actsFlat.read_ramAdvance h.ram4096 v a true }
  | ram16384Read a v => exact { h with ram16384 := ram16384_actsFlat.read_ramAdvance h.ram16384 v a false }
  | ram16384Write a v => exact { h with ram16384 := ram16384_actsFlat.read_ramAdvance h.ram16384 v a true }

theorem advance_output_eq_cycle {n : Tree} {b : Blocks} (h : Represents n b) (i : Instr) :
    (advance i b).2 = (cycle i n).2 := by
  cases i with
  | dffAdv => exact congrArg Output.dff h.dff
  | bitRead => exact congrArg Output.peek h.bit
  | bitHold | bitLoad => exact congrArg Output.bit h.bit
  | regHold | regLoad => exact congrArg (Output.reg <| regAdvance · _ _ |>.2) h.reg
  | ram8Read | ram8Write => exact congrArg (Output.ram _) (ram8_actsFlat.output_ramAdvance h.ram8 _ _ _)
  | ram64Read | ram64Write => exact congrArg (Output.ram _) (ram64_actsFlat.output_ramAdvance h.ram64 _ _ _)
  | ram512Read | ram512Write => exact congrArg (Output.ram _) (ram512_actsFlat.output_ramAdvance h.ram512 _ _ _)
  | ram4096Read | ram4096Write => exact congrArg (Output.ram _) (ram4096_actsFlat.output_ramAdvance h.ram4096 _ _ _)
  | ram16384Read | ram16384Write =>
    exact congrArg (Output.ram _) (ram16384_actsFlat.output_ramAdvance h.ram16384 _ _ _)

/-- Settles O41: each tier acts as a flat block, the base block by its registers and a composite by its children. -/
theorem nestedBlocksSimulateFlatBlocks : Obligations.NestedBlocksSimulateFlatBlocks := by
  intro i n s h
  refine ⟨s.see (advance i s.toBlocks), exec_eq_drive i s, represents_cycle h i, ?_⟩
  rw [State.see_outputs, advance_output_eq_cycle h]

end Sys2Proof.Machine.Nested
end

section
/-!
The fields of a command word (30_encoding.md R61, R62): cutting a packed word gives back the fields it was packed from,
and packing the fields of a word gives back the word. From the one, decoding undoes encoding; from the other, every
command is the command word of some operation, so encoding undoes decoding as well.
-/

namespace Sys2Proof
open Machine

@[simp] theorem enableField_packReg (e : Bool) (v : Word) : enableField (packReg e v) = e :=
  Laws.packReg_enable e v

@[simp] theorem valueField_packReg (e : Bool) (v : Word) : valueField (packReg e v) = v :=
  BitVec.extractLsb'_append_eq_right

/-- A one-bit string cut from the top of a command is its `enable`. -/
theorem ofBool_enableField {n : Nat} (cmd : BitVec n) :
    BitVec.ofBool (enableField cmd) = cmd.extractLsb' (n - 1) 1 := by
  apply BitVec.eq_of_getLsbD_eq
  intro i hi
  obtain rfl : i = 0 := by omega
  simp [enableField]

theorem packReg_fields (cmd : BitVec (1 + 16)) : packReg (enableField cmd) (valueField cmd) = cmd := by
  rw [packReg, ofBool_enableField]
  exact BitVec.extractLsb'_append_extractLsb'

theorem exists_eq_packReg (cmd : BitVec (1 + 16)) : ∃ e v, cmd = packReg e v :=
  ⟨_, _, (packReg_fields cmd).symm⟩

section Ram
variable {k : Nat}

@[simp] theorem enableField_packRam (e : Bool) (a : BitVec k) (v : Word) : enableField (packRam e a v) = e := by
  have top : 1 + k + 16 - 1 = 16 + k := by omega
  rw [enableField, top, Laws.packRam_enable]

@[simp] theorem addressField_packRam (e : Bool) (a : BitVec k) (v : Word) : addressField k (packRam e a v) = a := by
  rw [addressField, packRam, BitVec.extractLsb'_append_eq_of_le (Nat.le_refl 16)]
  exact BitVec.extractLsb'_append_eq_right

@[simp] theorem valueField_packRam (e : Bool) (a : BitVec k) (v : Word) : valueField (packRam e a v) = v :=
  BitVec.extractLsb'_append_eq_right

theorem packRam_fields (cmd : BitVec (1 + k + 16)) :
    packRam (enableField cmd) (addressField k cmd) (valueField cmd) = cmd := by
  have top : 1 + k + 16 - 1 = 16 + k := by omega
  rw [packRam, ofBool_enableField, top, addressField, BitVec.extractLsb'_append_extractLsb'_eq_extractLsb' rfl]
  exact BitVec.extractLsb'_append_extractLsb'

theorem exists_eq_packRam (cmd : BitVec (1 + k + 16)) : ∃ (e : Bool) (a : BitVec k) (v : Word), cmd = packRam e a v :=
  ⟨_, _, _, (packRam_fields cmd).symm⟩

theorem packRam_toNat (e : Bool) (a : BitVec k) (v : Word) :
    (packRam e a v).toNat = e.toNat * 2 ^ (k + 16) + idx a * 2 ^ 16 + v.val := by
  rw [packRam, BitVec.toNat_append, BitVec.toNat_append, BitVec.toNat_ofBool,
    ← Nat.shiftLeft_add_eq_or_of_lt v.isLt, ← Nat.shiftLeft_add_eq_or_of_lt a.isLt, Nat.shiftLeft_eq, Nat.shiftLeft_eq,
    Nat.add_mul, Nat.mul_assoc, ← Nat.pow_add, idx, Word.val]

end Ram

/-- Settles O49: the decoder cuts each packed word into the fields it was packed from (the simp lemmas above). -/
theorem decodeOfEncodeIsTheOperation : Obligations.DecodeOfEncodeIsTheOperation := by
  intro i
  cases i with
  | dffAdv next => cases next <;> rfl
  | bitRead => rfl
  | bitHold v | bitLoad v => cases v <;> rfl
  | _ => simp [encode, decode]

/-- No pattern of any format is reserved (R64): a command is the packing of its fields, and `enable` chooses the operation
that packs them. -/
theorem encode_surjective (c : Command) : ∃ i, encode i = c := by
  cases c with
  | dff cmd => exact ⟨.dffAdv (cmd.getLsbD 0), congrArg Command.dff (by revert cmd; decide)⟩
  | peek => exact ⟨.bitRead, rfl⟩
  | bit cmd =>
    obtain ⟨_ | _, v, rfl⟩ : ∃ e v, cmd = packBit e v := by revert cmd; decide
    · exact ⟨.bitHold v, rfl⟩
    · exact ⟨.bitLoad v, rfl⟩
  | reg cmd =>
    obtain ⟨_ | _, v, rfl⟩ := exists_eq_packReg cmd
    · exact ⟨.regHold v, rfl⟩
    · exact ⟨.regLoad v, rfl⟩
  | ram8 cmd =>
    obtain ⟨_ | _, a, v, rfl⟩ := exists_eq_packRam (k := 3) cmd
    · exact ⟨.ram8Read a v, rfl⟩
    · exact ⟨.ram8Write a v, rfl⟩
  | ram64 cmd =>
    obtain ⟨_ | _, a, v, rfl⟩ := exists_eq_packRam (k := 6) cmd
    · exact ⟨.ram64Read a v, rfl⟩
    · exact ⟨.ram64Write a v, rfl⟩
  | ram512 cmd =>
    obtain ⟨_ | _, a, v, rfl⟩ := exists_eq_packRam (k := 9) cmd
    · exact ⟨.ram512Read a v, rfl⟩
    · exact ⟨.ram512Write a v, rfl⟩
  | ram4096 cmd =>
    obtain ⟨_ | _, a, v, rfl⟩ := exists_eq_packRam (k := 12) cmd
    · exact ⟨.ram4096Read a v, rfl⟩
    · exact ⟨.ram4096Write a v, rfl⟩
  | ram16384 cmd =>
    obtain ⟨_ | _, a, v, rfl⟩ := exists_eq_packRam (k := 14) cmd
    · exact ⟨.ram16384Read a v, rfl⟩
    · exact ⟨.ram16384Write a v, rfl⟩

/-- Settles O50: the command encodes some operation, which decoding gives back. -/
theorem encodeOfDecodeIsTheCommand : Obligations.EncodeOfDecodeIsTheCommand := by
  intro c
  obtain ⟨i, rfl⟩ := encode_surjective c
  rw [decodeOfEncodeIsTheOperation i]

/-- Settles O51: each RAM operation is one packed word of its tier's address width. -/
theorem ramCommandWordIsTheWeightedSumOfItsFields : Obligations.RamCommandWordIsTheWeightedSumOfItsFields := by
  intro i acc access
  cases i <;> cases access <;> exact ⟨rfl, packRam_toNat _ _ _⟩

theorem wordBit_valueField {n : Nat} (cmd : BitVec n) {i : Nat} (hi : i < 16) :
    wordBit (valueField cmd) i = cmd.getLsbD i := by
  simp [wordBit, valueField, hi]

theorem addressBit_addressField {n k : Nat} (cmd : BitVec n) {i : Nat} (hi : i < k) :
    addressBit (addressField k cmd) i = cmd.getLsbD (k + 15 - i) := by
  have inside : k - 1 - i < k := by omega
  have place : 16 + (k - 1 - i) = k + 15 - i := by omega
  simp [addressBit, addressField, BitVec.getMsbD_eq_getLsbD, hi, inside, place]

/-- Settles O52: the operands are the fields of the command, whose bits stand where the two lemmas above say. -/
theorem decoderReadsEachFieldBit : Obligations.DecoderReadsEachFieldBit := by
  refine ⟨fun _ => rfl, fun _ => rfl, fun cmd => ?reg, fun cmd => ?ram8, fun cmd => ?ram64, fun cmd => ?ram512,
    fun cmd => ?ram4096, fun cmd => ?ram16384⟩
  case reg => exact ⟨_, rfl, fun _ => wordBit_valueField cmd⟩
  all_goals exact ⟨_, _, rfl, fun _ => addressBit_addressField cmd, fun _ => wordBit_valueField cmd⟩

end Sys2Proof
end

section
/-!
The opcode table (30_encoding.md R63): an operation's own command word matches its row, and the mask of a row is the same
for every operation of a format. So within one format a command matches the rows of the operation it decodes to alone.
-/

namespace Sys2Proof

theorem Laws.OwnCommandWord.statement : ∀ i, Laws.OwnCommandWord.Statement i
  | .dffAdv next => dffAdv next
  | .bitRead => bitRead
  | .bitHold v => bitHold v
  | .bitLoad v => bitLoad v
  | .regHold v => regHold v
  | .regLoad v => regLoad v
  | .ram8Read a v => ram8Read a v
  | .ram8Write a v => ram8Write a v
  | .ram64Read a v => ram64Read a v
  | .ram64Write a v => ram64Write a v
  | .ram512Read a v => ram512Read a v
  | .ram512Write a v => ram512Write a v
  | .ram4096Read a v => ram4096Read a v
  | .ram4096Write a v => ram4096Write a v
  | .ram16384Read a v => ram16384Read a v
  | .ram16384Write a v => ram16384Write a v

/-- The `enable` bit of a format's command word, where the format has one (R63). -/
def Format.enableMask : Format → Nat
  | .dff | .peek => 0
  | .bit => 2 ^ 1
  | .reg => 2 ^ 16
  | .ram t => 2 ^ (16 + Config.addressBits t)

theorem tableMask_eq_enableMask (i : Instr) : i.tableMask = (encode i).format.enableMask := by
  cases i <;> rfl

/-- Settles O53: under the mask of its format a command shows the `match` of the operation it decodes to. -/
theorem opcodeTableSelectsTheDecodedOperation : Obligations.OpcodeTableSelectsTheDecodedOperation := by
  intro c i sameFormat
  have selected : c.toNat &&& i.tableMask = (decode c).tableMatch := by
    obtain ⟨-, own⟩ := Laws.OwnCommandWord.statement (decode c)
    rwa [tableMask_eq_enableMask, encodeOfDecodeIsTheCommand c, ← sameFormat, ← tableMask_eq_enableMask] at own
  rw [selected]

end Sys2Proof
end

section
/-!
Numbers offered as command words (30_encoding.md R61, R65): the command of a format with the low bits of a number.
-/

namespace Sys2Proof

theorem Command.ofBits_format (f : Format) (w : Nat) : (Command.ofBits f w).format = f := by
  cases f with
  | ram t => cases t <;> rfl
  | _ => rfl

theorem Command.ofBits_toNat (f : Format) (w : Nat) : (Command.ofBits f w).toNat = w % 2 ^ f.width := by
  cases f with
  | peek => exact (Nat.mod_one w).symm
  | ram t => cases t <;> exact BitVec.toNat_ofNat ..
  | _ => exact BitVec.toNat_ofNat ..

/-- Settles O55: a number that fits is all of its low bits, and one that does not is refused by the check of the width. -/
theorem numbersTooWideForTheFormatAreNoCommand : Obligations.NumbersTooWideForTheFormatAreNoCommand := by
  intro f w
  constructor
  · intro fits
    refine ⟨Command.ofBits f w, if_pos (decide_eq_true fits), Command.ofBits_format f w, ?_⟩
    rw [Command.ofBits_toNat, Nat.mod_eq_of_lt fits]
  · intro tooWide
    exact if_neg (by simpa [Format.fits] using tooWide)

/-- Settles O54, by decoding the eight words. -/
theorem sampleCommandWordsDecode : Obligations.SampleCommandWordsDecode := by
  unfold Obligations.SampleCommandWordsDecode
  decide

end Sys2Proof
end

section
/-!
Presenting a script (30_encoding.md R69, 70_reset_and_hazards.md R183, R189): a step runs the decoded command, a run of a
whole script is the hardware's own, and every operation gives one output, from its own block and clocked if the operation
takes an edge.
-/

namespace Sys2Proof.Machine

/-- Settles O38: the script is not at its end, so the step fetches its first command. -/
theorem stepRunsTheDecodedCommand : Obligations.StepRunsTheDecodedCommand := fun _ _ _ => step_cons

/-- Settles O26: the next operations of a script that begins with `cs`, as many as `cs` has, are those of `cs`. -/
theorem scriptRunIsTheHardwareRun : Obligations.ScriptRunIsTheHardwareRun := by
  intro cs rest s
  have nextOps : State.nextOps { s with script := cs ++ rest } cs.length = cs.map decode := by
    rw [State.nextOps, List.take_left]
  rw [steps_eq_advanceAll, nextOps, List.drop_left]

/-- Settles O23: with `enable` 0 every block keeps its content by computation, before it looks at `value`. -/
theorem valueIsIgnoredWhenNotEnabled : Obligations.ValueIsIgnoredWhenNotEnabled := fun _ =>
  ⟨fun _ _ => rfl, fun _ _ => rfl, fun _ _ _ => rfl, fun _ _ _ => rfl, fun _ _ _ => rfl, fun _ _ _ => rfl,
    fun _ _ _ => rfl⟩

theorem advance_output_block (op : Instr) (b : Blocks) : (advance op b).2.block = op.block := by
  cases op <;> rfl

theorem advance_output_clocked (op : Instr) (b : Blocks) : (advance op b).2.clocked.toNat = clockEdges op := by
  cases op <;> rfl

theorem advanceAll_outputs_block (ops : List Instr) (b : Blocks) :
    (advanceAll ops b).2.map Output.block = ops.map Instr.block := by
  induction ops generalizing b with
  | nil => rfl
  | cons op ops ih => simp [advanceAll, advance_output_block, ih]

theorem clockedOutputs_length_cons (o : Output) (os : List Output) :
    (clockedOutputs (o :: os)).length = o.clocked.toNat + (clockedOutputs os).length := by
  cases h : o.clocked <;> simp [clockedOutputs, h, Nat.add_comm]

theorem clockedOutputs_advanceAll_length (ops : List Instr) (b : Blocks) :
    (clockedOutputs (advanceAll ops b).2).length = (ops.map clockEdges).sum := by
  induction ops generalizing b with
  | nil => rfl
  | cons op ops ih => simp [advanceAll, clockedOutputs_length_cons, advance_output_clocked, ih]

/-- Settles O33: the outputs a run adds are those of `advanceAll` over the operations of its commands. -/
theorem oneOutputPerCommand : Obligations.OneOutputPerCommand := by
  intro n s _
  refine ⟨_, _, steps_eq_advanceAll n s, rfl, rfl, ?_, ?_⟩
  · rw [advanceAll_outputs_block, State.nextOps, List.map_map]
    rfl
  · rw [clockedOutputs_advanceAll_length, State.nextOps, List.map_map]
    rfl

end Sys2Proof.Machine
end

section
/-!
Script lines (30_encoding.md R67, R68): a numeral in the range of its operand is written into the operation exactly, and
a pseudo-operation has the range check and the operation of its expansion.
-/

namespace Sys2Proof.Machine

theorem capacity_eq_two_pow (t : Tier) : Config.capacity t = 2 ^ Config.addressBits t := by
  cases t <;> rfl

theorem ramAccess_ramInstr {t : Tier} {i : Nat} (h : i < Config.capacity t) (v : Word) (e : Bool) :
    ramAccess (ramInstr t i v e) = some ⟨t, i, v, e⟩ := by
  have sameIndex : idx (BitVec.ofNat (Config.addressBits t) i) = i := by
    rw [idx, BitVec.toNat_ofNat, Nat.mod_eq_of_lt (capacity_eq_two_pow t ▸ h)]
  cases t <;> cases e <;> exact congrArg (fun j => some (Access.mk _ j v _)) sameIndex

theorem numeralBit_toNat {n : Numeral} (h : n.isBit = true) : (numeralBit n).toNat = n.value := by
  obtain ⟨-, inRange⟩ := Bool.and_eq_true_iff.mp h
  have small : n.value < 2 := of_decide_eq_true inRange
  obtain zero | one : n.value = 0 ∨ n.value = 1 := by omega
  · simp [numeralBit, zero]
  · simp [numeralBit, one]

theorem numeralWord_val {n : Numeral} (h : n.isWord = true) : (numeralWord n).val = n.value := by
  obtain ⟨-, inRange⟩ := Bool.and_eq_true_iff.mp h
  exact (BitVec.toNat_ofNat ..).trans (Nat.mod_eq_of_lt (of_decide_eq_true inRange))

theorem value_lt_capacity {t : Tier} {n : Numeral} (h : n.isAddress t = true) : n.value < Config.capacity t := by
  obtain ⟨-, inRange⟩ := Bool.and_eq_true_iff.mp h
  exact of_decide_eq_true inRange

/-- Settles O56: a well-formed line passes the range check, which is what makes its numerals exact as operands. -/
theorem scriptLinesStandForTheirOperations : Obligations.ScriptLinesStandForTheirOperations := by
  refine ⟨fun l h => if_neg (by simp [h]), fun t a w h => ?ramWrite, fun t a w h => ?ramRead, fun w h => ?regLoad,
    fun v h => ?bitLoad, fun w h => ?regHold, fun v h => ?bitHold, rfl, fun n h => ?dffAdv⟩
  case ramWrite | ramRead =>
    obtain ⟨address, word⟩ := Bool.and_eq_true_iff.mp h
    exact ⟨_, _, if_pos h, ramAccess_ramInstr (value_lt_capacity address) _ _, numeralWord_val word⟩
  case regLoad | regHold => exact ⟨_, if_pos h, numeralWord_val h⟩
  case bitLoad | bitHold | dffAdv => exact ⟨_, if_pos h, numeralBit_toNat h⟩

theorem wellFormed_ramAdv {t : Tier} {v a e : Numeral} (h : e.isBit = true) :
    (Line.ramAdv t v a e).wellFormed = (a.isAddress t && v.isWord) := by
  simp [Line.wellFormed, h, Bool.and_comm]

theorem wellFormed_regAdv {v e : Numeral} (h : e.isBit = true) : (Line.regAdv v e).wellFormed = v.isWord := by
  simp [Line.wellFormed, h]

theorem wellFormed_bitAdv {v e : Numeral} (h : e.isBit = true) : (Line.bitAdv v e).wellFormed = v.isBit := by
  simp [Line.wellFormed, h]

/-- Settles O57: beside a one-bit `enable` a pseudo-operation checks the operands its expansions check, and its `enable`
chooses between their operations. An omitted value and a written zero compute to the same line. -/
theorem pseudoOperationsAreTheirExpansions : Obligations.PseudoOperationsAreTheirExpansions := by
  refine ⟨fun t v a e h => ?_, fun v e h => ?_, fun v e h => ?_, fun t a => rfl, rfl, rfl⟩
  · by_cases on : e.value = 1 <;> simp only [assembleLine, wellFormed_ramAdv h, numeralBit, on] <;> rfl
  · by_cases on : e.value = 1 <;> simp only [assembleLine, wellFormed_regAdv h, numeralBit, on] <;> rfl
  · by_cases on : e.value = 1 <;> simp only [assembleLine, wellFormed_bitAdv h, numeralBit, on] <;> rfl

end Sys2Proof.Machine
end

section
/-!
Selection (40_selection_primitives.md): an address is known by its value, so the key of a demultiplexer is known by the
output it enables; and the word multiplexer is one `select` of whole words.
-/

namespace Sys2Proof.Machine

theorem idx_inj {k : Nat} {a b : BitVec k} (h : idx a = idx b) : a = b := BitVec.eq_of_toNat_eq h

theorem idx_eq_top_add_rest {f kc : Nat} (a : BitVec (f + kc)) :
    idx a = idx (addressSlice a 0 f) * 2 ^ kc + idx (addressSlice a f kc) := by
  rw [idx_addressSlice_top, idx_addressSlice_rest, Nat.div_add_mod']

theorem exists_idx_eq {k i : Nat} (h : i < 2 ^ k) : ∃ a : BitVec k, idx a = i :=
  ⟨BitVec.ofNatLT i h, BitVec.toNat_ofNatLT i h⟩

/-- Settles O46: quotient and remainder of the value by `2 ^ kc` are the values of the two slices. -/
theorem addressValueSplitsAtTheTopBits : Obligations.AddressValueSplitsAtTheTopBits :=
  ⟨fun _ _ => idx_eq_top_add_rest, fun _ _ _ => idx_inj, fun _ _ => exists_idx_eq⟩

theorem dmux8_true_get (s : BitVec 3) (c : Nat) (h : c < 8) : (dmux8 true s)[c] = decide (c = idx s) := by
  simp [dmux8_get]

theorem dmux4_true_get (s : BitVec 2) (c : Nat) (h : c < 4) : (dmux4 true s)[c] = decide (c = idx s) := by
  simp [dmux4_get]

theorem dmux8_false (s : BitVec 3) : dmux8 false s = Vector.replicate 8 false := by
  ext c h
  simp [dmux8_get]

theorem dmux4_false (s : BitVec 2) : dmux4 false s = Vector.replicate 4 false := by
  ext c h
  simp [dmux4_get]

/-- Keys whose one enabled output is the one at their value are told apart by it: output `idx s` of key `s'` is 1 only
if `idx s = idx s'`. -/
theorem key_eq_of_oneHot {k : Nat} {e : BitVec k → Vector Bool (2 ^ k)}
    (oneHot : ∀ s c (h : c < 2 ^ k), (e s)[c] = decide (c = idx s)) {s s' : BitVec k} (same : e s = e s') : s = s' := by
  have sameOutput : (e s)[idx s]'(idx_lt s) = (e s')[idx s]'(idx_lt s) := by rw [same]
  rw [oneHot, oneHot, decide_eq_decide] at sameOutput
  exact idx_inj (sameOutput.mp rfl)

/-- Settles O47: the one enabled output, and the word returned, are those at the value of the key. -/
theorem demultiplexerAndMultiplexerPair : Obligations.DemultiplexerAndMultiplexerPair := by
  refine ⟨fun s => ⟨⟨idx s, idx_lt s⟩, fun d => ?_, fun _ => rfl⟩,
    fun s => ⟨⟨idx s, idx_lt s⟩, fun d => ?_, fun _ => rfl⟩, dmux8_false, dmux4_false,
    fun _ _ => key_eq_of_oneHot dmux8_true_get, fun _ _ => key_eq_of_oneHot dmux4_true_get⟩
  · simp only [dmux8_true_get, Fin.ext_iff]
  · simp only [dmux4_true_get, Fin.ext_iff]

/-- Settles O48: every bit is selected by the same `sel`, so the bits are those of one of the words. -/
theorem wordMultiplexerReturnsTheSelectedWord : Obligations.WordMultiplexerReturnsTheSelectedWord := by
  intro x y sel
  cases sel with
  | false => exact ofBits_wordBit x
  | true => exact ofBits_wordBit y

end Sys2Proof.Machine
end

section
/-!
The Bit Cell (41_bit_cell.md R91, R92): one advance stores its input and outputs the content before it, so over a sequence
of advances the contents are the first content and then the inputs. The outputs are all of these but the last, which is
left in the cell.
-/

namespace Sys2Proof.Machine

/-- Settles O1: `DFF.ADV` is one advance of the Bit Cell, and its command word is the single bit `next`. -/
theorem bitCellStoresNextAndOutputsOld : Obligations.BitCellStoresNextAndOutputsOld :=
  fun next s => ⟨exec_eq_drive (.dffAdv next) s, rfl, BitVec.toNat_ofBool next, rfl, rfl⟩

theorem advanceAll_dffAdv (ns : List Bool) (b : Blocks) :
    advanceAll (ns.map .dffAdv) b =
      (b.setDff ((b.dff :: ns).getLast (List.cons_ne_nil _ _)), (b.dff :: ns).dropLast.map .dff) := by
  induction ns generalizing b with
  | nil => rfl
  | cons n ns ih =>
    have first : advance (.dffAdv n) b = (b.setDff n, .dff b.dff) := advanceDff_eq n b
    simp only [List.map_cons, advanceAll, first, ih]
    rfl

/-- Settles O2: the run is the hardware's own over the `DFF.ADV` operations that the commands decode to. -/
theorem bitCellDelaysItsInputByOneCycle : Obligations.BitCellDelaysItsInputByOneCycle := by
  intro ns s
  have run := scriptRunIsTheHardwareRun (ns.map fun n => encode (.dffAdv n)) [] s
  have ops : (ns.map fun n => encode (.dffAdv n)).map decode = ns.map .dffAdv := by
    rw [List.map_map]
    exact List.map_congr_left fun n _ => decodeOfEncodeIsTheOperation (.dffAdv n)
  rw [List.append_nil, List.length_map, ops, advanceAll_dffAdv] at run
  exact ⟨_, run, rfl, rfl⟩

end Sys2Proof.Machine
end

section
/-!
The Loadable Bit (42_loadable_bit.md R101 to R104): `BIT.HOLD` and `BIT.LOAD` are the two branches of one advance, which
stores the selected value and outputs the content before it; `BIT.READ` answers that same content and stores nothing.
-/

namespace Sys2Proof

/-- The command word of the format `BIT` as a sum of its weighted fields (30_encoding.md R61). -/
theorem packBit_toNat (e v : Bool) : (packBit e v).toNat = e.toNat * 2 + v.toNat := by
  cases e <;> cases v <;> rfl

end Sys2Proof

namespace Sys2Proof.Machine

theorem exec_hold_or_load (value enable : Bool) (s : State) :
    exec (if enable then .bitLoad value else .bitHold value) s = drive (advanceBit value enable) s := by
  cases enable with
  | false => exact exec_eq_drive (.bitHold value) s
  | true => exact exec_eq_drive (.bitLoad value) s

/-- Settles O4: both operations are the one advance of the Loadable Bit, whose closed form selects the new content. -/
theorem loadableBitStoresTheSelectedValue : Obligations.LoadableBitStoresTheSelectedValue := by
  intro value enable s
  rw [exec_hold_or_load, drive, advanceBit_eq]
  rfl

/-- Settles O5: with `enable` 0 the selected value is the content itself, so the cell is advanced with what it holds. -/
theorem loadableBitHoldKeepsContent : Obligations.LoadableBitHoldKeepsContent :=
  fun value s => ⟨loadableBitStoresTheSelectedValue value false s, rfl,
    (packBit_toNat false value).trans (by simp), rfl, rfl⟩

/-- Settles O6: with `enable` 1 the selected value is `value`. -/
theorem loadableBitLoadStoresValue : Obligations.LoadableBitLoadStoresValue :=
  fun value s => ⟨loadableBitStoresTheSelectedValue value true s, rfl, packBit_toNat true value, rfl, rfl⟩

/-- Settles O3: the peek answers the content and leaves the blocks alone, and either clocked operation outputs the content
it finds, whatever it stores. -/
theorem loadableBitPeekAnswersContent : Obligations.LoadableBitPeekAnswersContent :=
  ⟨fun s => ⟨exec_eq_drive .bitRead s, fun v e => ⟨_, loadableBitStoresTheSelectedValue v e s, rfl⟩⟩,
    rfl, rfl, rfl, rfl, rfl, rfl⟩

end Sys2Proof.Machine
end

section
/-!
The Word Register (43_word_register.md R111 to R113): `REG.HOLD` and `REG.LOAD` are the two branches of one advance of
sixteen Loadable Bits, each of which moves its own bit of the word. As a whole word the new content is the old one or
`value`, and the output is the old one.
-/

namespace Sys2Proof

/-- The command word of the format `REG` as a sum of its weighted fields (30_encoding.md R61). -/
theorem packReg_toNat (e : Bool) (v : Word) : (packReg e v).toNat = e.toNat * 2 ^ 16 + v.val := by
  rw [packReg, BitVec.toNat_append, BitVec.toNat_ofBool, ← Nat.shiftLeft_add_eq_or_of_lt v.isLt, Nat.shiftLeft_eq,
    Word.val]

end Sys2Proof

namespace Sys2Proof.Machine

theorem wordBit_ofBits (f : Nat → Bool) {i : Nat} (hi : i < 16) : wordBit (ofBits 16 f) i = f i := by
  rw [wordBit, getLsbD_ofBits, decide_eq_true hi, Bool.true_and]

theorem wordBit_regAdvance_content (r value : Word) (enable : Bool) {i : Nat} (hi : i < 16) :
    wordBit (regAdvance r value enable).1 i = select (wordBit r i) (wordBit value i) enable := by
  simp only [regAdvance, wordBit_ofBits _ hi, bitAdvance_eq]

theorem wordBit_regAdvance_output (r value : Word) (enable : Bool) {i : Nat} (hi : i < 16) :
    wordBit (regAdvance r value enable).2 i = wordBit r i := by
  simp only [regAdvance, wordBit_ofBits _ hi, bitAdvance_eq]

theorem exec_regHold_or_regLoad (value : Word) (enable : Bool) (s : State) :
    exec (if enable then .regLoad value else .regHold value) s = drive (advanceReg value enable) s := by
  cases enable with
  | false => exact exec_eq_drive (.regHold value) s
  | true => exact exec_eq_drive (.regLoad value) s

/-- Settles O9: new content and output are words built bit by bit, bit `i` of each by Loadable Bit `i` alone. -/
theorem wordRegisterMovesBitsInPlace : Obligations.WordRegisterMovesBitsInPlace :=
  fun value enable s => ⟨_, _, exec_regHold_or_regLoad value enable s, rfl,
    fun _ hi => ⟨wordBit_regAdvance_output _ _ _ hi, wordBit_regAdvance_content _ _ _ hi⟩⟩

/-- Settles O7: with `enable` 0 the register is advanced with its own content. -/
theorem wordRegisterHoldKeepsContent : Obligations.WordRegisterHoldKeepsContent := by
  intro value s
  have run := exec_regHold_or_regLoad value false s
  rw [drive, advanceReg_eq] at run
  exact ⟨run, rfl, (packReg_toNat false value).trans (by simp), rfl, rfl⟩

/-- Settles O8: with `enable` 1 the register is advanced with `value`. -/
theorem wordRegisterLoadStoresValue : Obligations.WordRegisterLoadStoresValue := by
  intro value s
  have run := exec_regHold_or_regLoad value true s
  rw [drive, advanceReg_eq] at run
  exact ⟨run, rfl, packReg_toNat true value, rfl, rfl⟩

end Sys2Proof.Machine
end

section
/-!
The RAM accesses by their access record (44_ram8.md R123 to R126): a read changes no word of any tier, a write changes the
addressed word of its tier alone, and both output the content before the edge. `RAM8.READ` and `RAM8.WRITE` are these two
at tier `ram8`.
-/

namespace Sys2Proof.Machine

theorem exec_ramRead {i : Instr} {a : Access} (h : ramAccess i = some a) (disabled : a.enable = false) (s : State) :
    exec i s = .next { s with outputs := s.outputs ++ [.ram a.tier ((s.mem a.tier).read a.index)] } := by
  rw [exec_ramAccess h, advanceRam_eq, disabled, if_neg Bool.false_ne_true, Blocks.setMem_self]
  rfl

/-- The last clause is the frame: with the old memory and the old outputs put back, it is the state before. -/
theorem exec_ramWrite {i : Instr} {a : Access} (h : ramAccess i = some a) (enabled : a.enable = true) (s : State) :
    ∃ t, exec i s = .next t ∧
      t.outputs = s.outputs ++ [.ram a.tier ((s.mem a.tier).read a.index)] ∧
      (t.mem a.tier).read a.index = a.value ∧
      (∀ j, j ≠ a.index → (t.mem a.tier).read j = (s.mem a.tier).read j) ∧
      { t with toBlocks := t.setMem a.tier (s.mem a.tier), outputs := s.outputs } = s := by
  refine ⟨_, exec_ramAccess h s, rfl, ?_, fun j other => ?_, ?_⟩
  · simp [advanceRam_eq, enabled, Memory.read_write]
  · simp [advanceRam_eq, enabled, Memory.read_write, other.symm]
  · simp [advanceRam_eq]

/-- An operation leaves a word as it was, or it is the write to that word. -/
theorem read_advance_cases (i : Instr) (b : Blocks) (k : Tier) (j : Nat) :
    ((advance i b).1.mem k).read j = (b.mem k).read j ∨
    ∃ v, ramAccess i = some ⟨k, j, v, true⟩ ∧ ((advance i b).1.mem k).read j = v := by
  cases access : ramAccess i with
  | none => exact .inl (by rw [advance_mem_of_noAccess access])
  | some a =>
    rw [read_advance, latestWrite_singleton access]
    split
    · next written =>
      obtain ⟨rfl, rfl, enabled⟩ := written
      exact .inr ⟨a.value, by rw [← enabled], rfl⟩
    · exact .inl rfl

/-- Settles O21: a word that reads differently is not the case of a word left alone, and every access outputs the content
it finds at its address. -/
theorem onlyTheAddressedWordChanges : Obligations.OnlyTheAddressedWordChanges := by
  intro i s t k j run changed
  rw [exec_eq_drive] at run
  cases run
  obtain unchanged | ⟨v, access, stored⟩ := read_advance_cases i s.toBlocks k j
  · exact absurd unchanged changed
  · exact ⟨v, access, stored, by rw [State.see_outputs, advance_ramAccess access, advanceRam_eq]⟩

theorem idx_eq_of_three_bits (address : BitVec 3) :
    idx address =
      4 * (addressBit address 0).toNat + 2 * (addressBit address 1).toNat + (addressBit address 2).toNat := by
  rw [addressValueIsTheWeightedSumOfItsBits 3 address]
  simp [List.range_succ, Nat.mul_comm, Nat.add_assoc]

/-- Settles O11: the write of `exec_ramWrite` at tier `ram8`. -/
theorem ram8WriteStoresValueAndOutputsOld : Obligations.Ram8WriteStoresValueAndOutputsOld :=
  fun address value s =>
    ⟨exec_ramWrite (i := .ram8Write address value) rfl rfl s, idx_eq_of_three_bits address,
      rfl, (packRam_toNat true address value).trans (by simp), rfl, rfl⟩

/-- Settles O10: the read of `exec_ramRead` at tier `ram8`. -/
theorem ram8ReadOutputsAddressedWord : Obligations.Ram8ReadOutputsAddressedWord :=
  fun address value s =>
    ⟨exec_ramRead (i := .ram8Read address value) rfl rfl s, idx_eq_of_three_bits address,
      rfl, (packRam_toNat false address value).trans (by simp), rfl, rfl⟩

end Sys2Proof.Machine
end

section
/-!
The composite tiers (45_composite_ram.md R134 to R141): `READ` and `WRITE` of a tier are the read and the write of its
access record, whose fields give the command word as well, and the address splits at its top bits into the child and the
word within the child (R133).
-/

namespace Sys2Proof.Machine

theorem encodedAs_ramRead {i : Instr} {a : Access} (h : ramAccess i = some a) (disabled : a.enable = false) :
    EncodedAs i (.ram a.tier) (a.index * 2 ^ 16 + a.value.val) i.tableMask i.tableMatch := by
  obtain ⟨format, word⟩ := ramCommandWordIsTheWeightedSumOfItsFields i a h
  exact ⟨format, by simp [word, disabled], rfl, rfl⟩

theorem encodedAs_ramWrite {i : Instr} {a : Access} (h : ramAccess i = some a) (enabled : a.enable = true) :
    EncodedAs i (.ram a.tier) (2 ^ (Config.addressBits a.tier + 16) + a.index * 2 ^ 16 + a.value.val) i.tableMask
      i.tableMatch := by
  obtain ⟨format, word⟩ := ramCommandWordIsTheWeightedSumOfItsFields i a h
  exact ⟨format, by simp [word, enabled], rfl, rfl⟩

/-- Settles O13: the write of `exec_ramWrite` at tier `ram64`. -/
theorem ram64WriteStoresValueAndOutputsOld : Obligations.Ram64WriteStoresValueAndOutputsOld :=
  fun address value s =>
    ⟨exec_ramWrite (i := .ram64Write address value) rfl rfl s, idx_eq_top_add_rest (f := 3) (kc := 3) address,
      encodedAs_ramWrite (i := .ram64Write address value) rfl rfl⟩

/-- Settles O15: the write of `exec_ramWrite` at tier `ram512`. -/
theorem ram512WriteStoresValueAndOutputsOld : Obligations.Ram512WriteStoresValueAndOutputsOld :=
  fun address value s =>
    ⟨exec_ramWrite (i := .ram512Write address value) rfl rfl s, idx_eq_top_add_rest (f := 3) (kc := 6) address,
      encodedAs_ramWrite (i := .ram512Write address value) rfl rfl⟩

/-- Settles O17: the write of `exec_ramWrite` at tier `ram4096`. -/
theorem ram4096WriteStoresValueAndOutputsOld : Obligations.Ram4096WriteStoresValueAndOutputsOld :=
  fun address value s =>
    ⟨exec_ramWrite (i := .ram4096Write address value) rfl rfl s, idx_eq_top_add_rest (f := 3) (kc := 9) address,
      encodedAs_ramWrite (i := .ram4096Write address value) rfl rfl⟩

/-- Settles O19: the write of `exec_ramWrite` at tier `ram16384`, whose child is named by two bits. -/
theorem ram16384WriteStoresValueAndOutputsOld : Obligations.Ram16384WriteStoresValueAndOutputsOld :=
  fun address value s =>
    ⟨exec_ramWrite (i := .ram16384Write address value) rfl rfl s, idx_eq_top_add_rest (f := 2) (kc := 12) address,
      encodedAs_ramWrite (i := .ram16384Write address value) rfl rfl⟩

/-- Settles O12: the read of `exec_ramRead` at tier `ram64`. -/
theorem ram64ReadOutputsAddressedWord : Obligations.Ram64ReadOutputsAddressedWord :=
  fun address value s =>
    ⟨exec_ramRead (i := .ram64Read address value) rfl rfl s, idx_eq_top_add_rest (f := 3) (kc := 3) address,
      encodedAs_ramRead (i := .ram64Read address value) rfl rfl⟩

/-- Settles O14: the read of `exec_ramRead` at tier `ram512`. -/
theorem ram512ReadOutputsAddressedWord : Obligations.Ram512ReadOutputsAddressedWord :=
  fun address value s =>
    ⟨exec_ramRead (i := .ram512Read address value) rfl rfl s, idx_eq_top_add_rest (f := 3) (kc := 6) address,
      encodedAs_ramRead (i := .ram512Read address value) rfl rfl⟩

/-- Settles O16: the read of `exec_ramRead` at tier `ram4096`. -/
theorem ram4096ReadOutputsAddressedWord : Obligations.Ram4096ReadOutputsAddressedWord :=
  fun address value s =>
    ⟨exec_ramRead (i := .ram4096Read address value) rfl rfl s, idx_eq_top_add_rest (f := 3) (kc := 9) address,
      encodedAs_ramRead (i := .ram4096Read address value) rfl rfl⟩

/-- Settles O18: the read of `exec_ramRead` at tier `ram16384`, whose child is named by two bits. -/
theorem ram16384ReadOutputsAddressedWord : Obligations.Ram16384ReadOutputsAddressedWord :=
  fun address value s =>
    ⟨exec_ramRead (i := .ram16384Read address value) rfl rfl s, idx_eq_top_add_rest (f := 2) (kc := 12) address,
      encodedAs_ramRead (i := .ram16384Read address value) rfl rfl⟩

end Sys2Proof.Machine
end

section
/-!
The enables of the leaves (44_ram8.md R125, 45_composite_ram.md R142). A demultiplexer asserts its enable at one place
alone, and splitting each of its outputs among the leaves of one child again asserts one place alone, whose quotient and
remainder by the leaves of a child are the two places.
-/

namespace Sys2Proof.Machine.Nested

/-- `n` enables of which the one at place `j` is `enable` and every other is 0. -/
def oneHot (n : Nat) (enable : Bool) (j : Nat) : List Bool := (List.range n).map fun i => enable && decide (i = j)

theorem dmux8_toList (enable : Bool) (s : BitVec 3) : (dmux8 enable s).toList = oneHot 8 enable (idx s) := by
  apply List.ext_getElem
  · simp [oneHot]
  · intro c _ _
    simp [oneHot, dmux8_get, Bool.and_comm]

theorem dmux4_toList (enable : Bool) (s : BitVec 2) : (dmux4 enable s).toList = oneHot 4 enable (idx s) := by
  apply List.ext_getElem
  · simp [oneHot]
  · intro c _ _
    simp [oneHot, dmux4_get, Bool.and_comm]

theorem oneHot_add (m n : Nat) (enable : Bool) (j : Nat) :
    oneHot (m + n) enable j = oneHot m enable j ++ (List.range n).map fun i => enable && decide (m + i = j) := by
  simp [oneHot, List.range_add, Function.comp_def]

/-- Place `j` among `F` children of `n` leaves is place `j % n` of child `j / n`. By induction on `F`: the leaves of the
last child are the places `F * n + i` with `i < n`. -/
theorem oneHot_mul {n : Nat} (F : Nat) (enable : Bool) (j : Nat) :
    oneHot (F * n) enable j = (oneHot F enable (j / n)).flatMap fun e => oneHot n e (j % n) := by
  induction F with
  | zero => simp [oneHot]
  | succ F ih =>
    have lastChild : ((List.range n).map fun i => enable && decide (F * n + i = j)) =
        oneHot n (enable && decide (F = j / n)) (j % n) := by
      refine List.map_congr_left fun i hi => ?_
      have inChild : i < n := List.mem_range.mp hi
      have samePlace : F * n + i = j ↔ F = j / n ∧ i = j % n := by
        rw [Nat.ext_div_mod_iff n, Nat.add_comm, Nat.add_mul_div_right _ _ (Nat.zero_lt_of_lt inChild),
          Nat.add_mul_mod_self_right, Nat.div_eq_of_lt inChild, Nat.mod_eq_of_lt inChild, Nat.zero_add]
      simp [samePlace, Bool.and_assoc]
    rw [Nat.succ_mul, oneHot_add, ih, lastChild, oneHot_add F 1]
    simp

section Composite
variable {kc : Nat} {childEnables : Bool → BitVec kc → List Bool}

theorem enables8_eq_oneHot (child : ∀ e a, childEnables e a = oneHot (2 ^ kc) e (idx a)) (enable : Bool)
    (address : BitVec (3 + kc)) : enables8 childEnables enable address = oneHot (8 * 2 ^ kc) enable (idx address) := by
  simp only [enables8, dmux8_toList, child, idx_addressSlice_top, idx_addressSlice_rest, oneHot_mul]

theorem enables4_eq_oneHot (child : ∀ e a, childEnables e a = oneHot (2 ^ kc) e (idx a)) (enable : Bool)
    (address : BitVec (2 + kc)) : enables4 childEnables enable address = oneHot (4 * 2 ^ kc) enable (idx address) := by
  simp only [enables4, dmux4_toList, child, idx_addressSlice_top, idx_addressSlice_rest, oneHot_mul]

end Composite

theorem ram64Enables_eq_oneHot : ∀ e a, ram64Enables e a = oneHot 64 e (idx a) := enables8_eq_oneHot dmux8_toList
theorem ram512Enables_eq_oneHot : ∀ e a, ram512Enables e a = oneHot 512 e (idx a) :=
  enables8_eq_oneHot ram64Enables_eq_oneHot
theorem ram4096Enables_eq_oneHot : ∀ e a, ram4096Enables e a = oneHot 4096 e (idx a) :=
  enables8_eq_oneHot ram512Enables_eq_oneHot
theorem ram16384Enables_eq_oneHot : ∀ e a, ram16384Enables e a = oneHot 16384 e (idx a) :=
  enables4_eq_oneHot ram4096Enables_eq_oneHot

/-- Settles O43: the enables are one-hot at the base block, and a composite keeps them so. -/
theorem exactlyTheAddressedLeafIsEnabled : Obligations.ExactlyTheAddressedLeafIsEnabled :=
  ⟨dmux8_toList, ram64Enables_eq_oneHot, ram512Enables_eq_oneHot, ram4096Enables_eq_oneHot,
    ram16384Enables_eq_oneHot⟩

end Sys2Proof.Machine.Nested
end

section
/-!
No fault and no refusal (60_exceptions.md R160, 70_reset_and_hazards.md R190): an operation and a step always answer a next
state.
-/

namespace Sys2Proof.Machine

/-- Settles O24: the caller drives the block, which answers one output of its own. -/
theorem everyOperationGivesNextStateAndOutput : Obligations.EveryOperationGivesNextStateAndOutput := fun i s =>
  ⟨s.see (advance i s.toBlocks), (advance i s.toBlocks).2, exec_eq_drive i s, rfl, rfl,
    advance_output_block i s.toBlocks⟩

/-- Settles O27: with no command left the state stays, and otherwise the decoded operation answers one. -/
theorem everyStepGivesNextState : Obligations.EveryStepGivesNextState := by
  intro s
  cases hs : s.script with
  | nil => exact ⟨s, step_nil hs⟩
  | cons c rest =>
    obtain ⟨t, -, run, -⟩ := everyOperationGivesNextStateAndOutput (decode c) (s.setScript rest)
    exact ⟨t, (step_cons hs).trans run⟩

end Sys2Proof.Machine
end

section
/-!
The two ends of a step (log entries 3, 4 and 8): at the end of the script it changes nothing, and a command placed in front
of the script, by itself or as an opcode-table word, is the operation it runs, on the state the command was placed in.
-/

namespace Sys2Proof

theorem decodeTableWord_eq_some_iff {nbits w : Nat} {i : Instr} :
    decodeTableWord nbits w = some i ↔ ∃ c, commandOfTableWord nbits w = .ok c ∧ decode c = i := by
  cases h : commandOfTableWord nbits w <;> simp [decodeTableWord, h]

end Sys2Proof

namespace Sys2Proof.Machine

/-- Settles O39: with no command left nothing is fetched. -/
theorem stepAtTheEndOfTheScriptChangesNothing : Obligations.StepAtTheEndOfTheScriptChangesNothing := fun _ => step_nil

/-- Fetching the placed command puts the script back, so it runs on the state it was placed in. -/
theorem step_present (s : State) (c : Command) : step (s.present c) = exec (decode c) s :=
  step_cons (s.present_script c)

theorem State.withFetchWord_of_ok {nbits w : Nat} {c : Command} (h : commandOfTableWord nbits w = .ok c) (s : State) :
    s.withFetchWord nbits w = s.present c := by
  rw [State.withFetchWord, h]

/-- Settles O40: the command whose operation the decoder reads from the word is the command that is placed. -/
theorem placedWordIsRunByTheNextStep : Obligations.PlacedWordIsRunByTheNextStep := by
  intro nbits w i s decoded
  obtain ⟨c, word, rfl⟩ := decodeTableWord_eq_some_iff.mp decoded
  rw [State.withFetchWord_of_ok word, step_present]

end Sys2Proof.Machine
end
